-- ==== Sys2Proof/Word.lean ====
section
/-! DEFINITION. The word types of the Bus Driver and the names of its four opcodes.

Widths: `00_scope.md` R7 and R8. A line bit follows R9: `true` is 1, released; `false` is 0, driven low. -/

namespace Sys2Proof

/-- One bit. On a line (R9) `true` means released, logical 1, and `false` means driven low, logical 0. -/
abbrev Bit := Bool

/-- The operand and data width, 8 bits (R7, "byte width"). -/
abbrev Byte := BitVec 8

/-- A command word of the one format CMD10 (R80). -/
abbrev CmdWord := BitVec 10

/-- The four values of the opcode field and of the register `op` (R25, R81). -/
inductive Opcode where
  /-- `0b00`, begin a frame (R130). -/
  | start
  /-- `0b01`, end a frame (R131). -/
  | stop
  /-- `0b10`, send a byte (R140). -/
  | send
  /-- `0b11`, read a byte (R150). -/
  | read
deriving DecidableEq, Repr

end Sys2Proof
end

