-- ==== Sys2Proof/Syntax.lean ====
section
/-! DEFINITION. The four commands (R81), programs (R86) and the host's pseudo-commands (R88). -/

namespace Sys2Proof

/-- The commands of the Bus Driver, one constructor per row of `spec/opcode_table.json` (R81).
Only the operand bits a command uses are kept: the ignored ones are stored nowhere (R84). -/
inductive Instr where
  /-- START, begin a frame (R130). No operand. -/
  | start
  /-- STOP, end a frame (R131). No operand. -/
  | stop
  /-- SEND `byte`, shift a byte out and sample the acknowledgment (R140). -/
  | send (byte : Byte)
  /-- READ `ack`, shift a byte in and acknowledge it when `ack` is 1 (R150). -/
  | read (ack : Bit)
deriving DecidableEq, Repr

/-- The opcode of a command (R81). -/
def Instr.opcode : Instr → Opcode
  | .start => .start
  | .stop => .stop
  | .send _ => .send
  | .read _ => .read

/-- A finite list of commands the host presents in order, each after the one before completed (R86). -/
abbrev Program := List Instr

/-- The byte after the device address that opens a command stream (R89). Host data. -/
def cmdStreamPrefix : Byte := 0x00

/-- The byte after the device address that opens a data stream (R89). Host data. -/
def dataStreamPrefix : Byte := 0x40

/-- The framed transaction both pseudo-commands of R88 share; `DEV_ADDR` is the host's parameter (D22). R88 gives the
expansion for `n >= 1` payload bytes. DESIGN CHOICE, log entry 9: with none, it is the same frame around no payload. -/
def framedTxn (devAddr mode : Byte) (payload : List Byte) : Program :=
  [.start, .send devAddr, .send mode] ++ payload.map .send ++ [.stop]

/-- `TXN_CMD b1, ..., bn` (R88, `n >= 1`; no payload byte: log entry 9), expanded by the host. -/
def txnCmd (devAddr : Byte) (payload : List Byte) : Program := framedTxn devAddr cmdStreamPrefix payload

/-- `TXN_DATA b1, ..., bn` (R88, `n >= 1`; no payload byte: log entry 9), expanded by the host. -/
def txnData (devAddr : Byte) (payload : List Byte) : Program := framedTxn devAddr dataStreamPrefix payload

/-- The assembly text of a command (R86); `0x` and the byte in hexadecimal for SEND, 0 or 1 for READ. -/
def Instr.assembly : Instr → String
  | .start => "START"
  | .stop => "STOP"
  | .send b => "SEND 0x" ++ b.toHex
  | .read a => "READ " ++ (if a then "1" else "0")

end Sys2Proof
end

