-- ==== Sys2Proof/WellFormed.lean ====
section
/-! DEFINITION. What is well formed: commands, command words, transactions.

The operand types carry their widths and no encoding is illegal (R84), so every command is well formed.
What can be ill formed is what a host writes: a word wider than CMD10, a word whose ignored bits are not
zero (R84 advises zero), and a command list that breaks the framing duty (R184 item 4). -/

namespace Sys2Proof

/-- Every command is well formed: all opcodes and all operand values are legal (R84, R162). -/
def Instr.wellFormed : Instr → Bool
  | .start => true
  | .stop => true
  | .send _ => true
  | .read _ => true

/-- A number is a command word when it fits the 10 bits of CMD10 (R80). -/
def isCmdWord (w : Nat) : Bool := decide (w < 1024)

/-- The bits of a word a command uses (R82, R84): opcode only, opcode and byte, or opcode and `arg[0]`. -/
def usedBits : Opcode → CmdWord
  | .start => 0x300
  | .stop => 0x300
  | .send => 0x3FF
  | .read => 0x301

/-- The commands allowed between START and STOP (R184 item 4). -/
def isTransfer : Instr → Bool
  | .start => false
  | .stop => false
  | .send _ => true
  | .read _ => true

/-- The framing duty of R184 item 4 as a scan: `opened` says whether a frame is open. The block keeps no
such bit and checks nothing (R188); this is the host's duty alone. -/
def framedFrom : Bool → Program → Bool
  | opened, [] => !opened
  | false, c :: cs => decide (c = .start) && framedFrom true cs
  | true, c :: cs => if c = .stop then framedFrom false cs else isTransfer c && framedFrom true cs

/-- A program in which every transaction begins with START, ends with STOP and holds only SEND and READ
between them (R184 item 4). -/
def isFramed (p : Program) : Bool := framedFrom false p

end Sys2Proof
end

