-- ==== Sys2Proof/Decode.lean ====
section
/-! DEFINITION. The decoder and, after it, the encoder of the format CMD10 (R80 to R82, R84, R86). -/

namespace Sys2Proof

/-- The field `op`, bits 9:8 (R80). -/
def opField (w : CmdWord) : BitVec 2 := w.extractLsb' 8 2

/-- The field `arg`, bits 7:0 (R80). -/
def argField (w : CmdWord) : Byte := w.extractLsb' 0 8

/-- The opcode map (R81). All four codes are commands (R84). -/
def decodeOpcode (op : BitVec 2) : Opcode :=
  if op = 0b00 then .start
  else if op = 0b01 then .stop
  else if op = 0b10 then .send
  else .read

/-- The command on the ports `cmd_op` and `cmd_arg` (R81, R82): the byte is `arg[7:0]`, the acknowledgment
is `arg[0]`, and the other operand bits are ignored (R84). -/
def decode (op : BitVec 2) (arg : Byte) : Instr :=
  match decodeOpcode op with
  | .start => .start
  | .stop => .stop
  | .send => .send arg
  | .read => .read (arg.getLsbD 0)

/-- The decoder of a 10-bit word, total (R81: every word matches exactly one row). -/
def decodeWord (w : CmdWord) : Instr := decode (opField w) (argField w)

/-- Why a number is not decoded. -/
inductive DecodeError where
  /-- The number does not fit the 10 bits of CMD10. Raised by `decodeNat`; safe (log entry 10): the ports
  are 10 bits wide and cannot carry it. -/
  | widerThanCmd10 (w : Nat)
deriving DecidableEq, Repr

/-- The decoder on any number: a command of CMD10, or a rejection by name (R80). -/
def decodeNat (w : Nat) : Except DecodeError Instr :=
  if isCmdWord w then .ok (decodeWord (BitVec.ofNat 10 w)) else .error (.widerThanCmd10 w)

/-- The code of an opcode (R81). -/
def opcodeBits : Opcode → BitVec 2
  | .start => 0b00
  | .stop => 0b01
  | .send => 0b10
  | .read => 0b11

/-- The operand field of a command, with ignored bits zero (R82, R86). -/
def argBits : Instr → Byte
  | .start => 0
  | .stop => 0
  | .send b => b
  | .read a => if a then 1 else 0

/-- The 10-bit word of a command, opcode above operand, ignored bits zero (R80, R86). -/
def encode (i : Instr) : CmdWord := opcodeBits i.opcode ++ argBits i

/-- The `match` value of a command's row (R81). -/
def rowMatch : Opcode → CmdWord
  | .start => 0x000
  | .stop => 0x100
  | .send => 0x200
  | .read => 0x300

/-- The `mask` value that all four rows share (R81). -/
def rowMask : CmdWord := 0x300

/-- A word matches a row when its masked bits are the row's (R81). -/
def matchesRow (o : Opcode) (w : CmdWord) : Bool := decide (w &&& rowMask = rowMatch o)

/-- What the decoder reads from an instruction of `nbits` bits `w`. The word travels on parallel ports
(R80), so its bits are the table's bits; a number wider than 10 bits is refused (log entry 10). -/
def decodeTableWord (nbits w : Nat) : Option Instr :=
  match decodeNat (w % 2 ^ nbits) with
  | .ok i => some i
  | .error _ => none

end Sys2Proof
end

