-- ==== Sys2Proof/Config.lean ====
section
/-! DEFINITION. What the integrator and the environment fix and the spec leaves open.

Both constants are opaque: nothing in Lean can compute them or prove a value of them. -/

namespace Sys2Proof.Config

/-- `T_SETTLE - 1` of the machine as built, the number the delay counter is loaded with (R7, R27).
`T_SETTLE` is OPEN with `T_SETTLE >= 1` (D7), so every natural number is a legal value here.
DESIGN CHOICE, safe: log entry 1. -/
opaque settleReload : Nat

/-- The peer's bit in an input cycle that the list `inputs` of the state does not give, by the number
of the cycle (R23, D21: a free input under no law). DESIGN CHOICE, safe: log entry 3. -/
opaque peerSda : Nat → Bit

/-- `W_DLY`, the width of the register `dly`: the smallest `w >= 1` with `2^w >= T_SETTLE` (R7, D25). -/
def wDly (tSettle : Nat) : Nat := max 1 (Nat.clog 2 tSettle)

end Sys2Proof.Config
end

