-- ==== Sys2Proof/Machine/State.lean ====
section
/-! DEFINITION. The state of the machine: the block's ten registers (R20), for a block built with a settle delay
`tSettle` (the parameter `T_SETTLE`, R7), and beside them what the spec makes an argument of each step and a plain
state machine must carry (log entries 1 to 5). -/

namespace Sys2Proof.Machine

/-- The sequencer state `st` (R24). The fourth code of the two-bit register cannot be written down (U4). -/
inductive SeqState where
  /-- No command in progress; a command can be accepted. -/
  | idle
  /-- A command is in progress. -/
  | run
  /-- The fatal halt after a missing acknowledgment; only reset leaves it (R108). -/
  | halt
deriving DecidableEq, Repr

/-- A line pair `cd`, clock first (R11). -/
structure Lines where
  scl : Bit
  sda : Bit
deriving DecidableEq, Repr

/-- The complete state of a block built with a settle delay `tSettle`, the record `S` of R20. The parameter is no
part of the record (R42); it fixes the width of `dly`. -/
structure Block (tSettle : Nat) where
  /-- The clock line's output (R21). -/
  scl : Bit
  /-- The data line's output (R21). -/
  sda : Bit
  /-- Sequencer state (R24). -/
  st : SeqState
  /-- Opcode of the command accepted most recently (R25). -/
  op : Opcode
  /-- Phase index, 5 bits (R26). -/
  ph : BitVec 5
  /-- Cycles left in the current phase, 0 to `T_SETTLE - 1`, `W_DLY` bits (R27, R168). -/
  dly : BitVec (Config.wDly tSettle)
  /-- Byte operand of the last SEND accepted (R28). -/
  txb : Byte
  /-- Acknowledge operand of the last READ accepted (R29). -/
  ackarg : Bit
  /-- Receive shift register (R30). -/
  rxb : Byte
  /-- Acknowledgment sample of the last SEND, 1 = none received (R31). -/
  nak : Bit
deriving DecidableEq, Repr

/-- The two lines as a pair (R11). -/
def Block.lines {tSettle : Nat} (b : Block tSettle) : Lines := ⟨b.scl, b.sda⟩

/-- The input ports in one cycle (R32), the argument `in` of the step of R100. -/
structure PortIn where
  rst : Bit
  cmdValid : Bit
  cmdOp : BitVec 2
  cmdArg : Byte
  sdaIn : Bit
deriving DecidableEq, Repr

/-- What the host and the peer choose in one cycle: the host's ports, and the peer's bit (1 = the peer has
released the data line, R23). -/
structure Stimulus where
  rst : Bit
  cmdValid : Bit
  cmdOp : BitVec 2
  cmdArg : Byte
  peerSda : Bit
deriving DecidableEq, Repr

/-- A block in its environment: its registers, and the environment's choices still to come. -/
structure Circuit (tSettle : Nat) where
  /-- The block's registers (R20). -/
  block : Block tSettle
  /-- The environment's choices for the coming cycles, next first. The model's own field (log entry 2). -/
  inputs : List Stimulus
  /-- How many input cycles have been taken. The model's own counter; indexes the free peer bit (log entry 4). -/
  cycle : Nat
  /-- The line pair in each cycle since the run began, oldest first. The model's own record of what the peer
  sees; no rule reads it (log entry 5). -/
  bus : List Lines
deriving DecidableEq, Repr

/-- The machine: a circuit, and the parameter it was built with. -/
structure State where
  /-- `T_SETTLE - 1` (R7, R27); no step changes it. The model's own place for the parameter (log entry 1). -/
  reload : Nat
  /-- The block and its environment. -/
  circuit : Circuit (reload + 1)
deriving DecidableEq, Repr

/-- `T_SETTLE`, at least 1 in every state (R7). -/
def State.tSettle (s : State) : Nat := s.reload + 1

/-- The state with another circuit of the same settle delay. -/
def State.put (s : State) (c : Circuit (s.reload + 1)) : State := { s with circuit := c }

/-- The reasons a step stops with a fault. There are none: the step of R100 never faults, the exception
`NackHalt` is the state HALT (R160), and nothing else is an exception (R162). -/
inductive Fault where
deriving DecidableEq, Repr

/-- The reasons a step refuses. The step of R100 never refuses. -/
inductive Refusal where
  /-- An instruction without a meaning, by mnemonic. No arm of `exec` raises it; it would be safe. -/
  | notModelled (mnemonic : String)
deriving DecidableEq, Repr

/-- `RESET_STATE` (R40). -/
def Block.reset {tSettle : Nat} : Block tSettle where
  scl := true
  sda := true
  st := .idle
  op := .start
  ph := 0
  dly := 0
  txb := 0x00
  ackarg := false
  rxb := 0x00
  nak := false

/-- The machine right after reset, for a block built with `T_SETTLE = reload + 1` and the given environment. -/
def State.resetWith (reload : Nat) (inputs : List Stimulus) : State where
  reload := reload
  circuit := { block := Block.reset, inputs := inputs, cycle := 0, bus := [] }

/-- The machine right after reset (R40). No environment choice is listed, so the host is quiet, and
`T_SETTLE` is the open parameter of the machine as built (R7, log entries 1, 3, 4, 5). -/
def State.reset : State := State.resetWith Config.settleReload []

end Sys2Proof.Machine
end

