-- ==== Sys2Proof/Machine/Ops.lean ====
section
/-! DEFINITION. The named operations on the block: driving a line, sampling the data line, the fatal halt
and its only way out (R10, R21, R23, R160, R165, R166). -/

namespace Sys2Proof.Machine

variable {tSettle : Nat}

/-- The two line registers (R10). -/
inductive Line where
  | scl
  | sda
deriving DecidableEq, Repr

/-- A line action: write `value` to `line` (R10, R110). -/
structure LineAction where
  line : Line
  value : Bit
deriving DecidableEq, Repr

/-- `Drive(line, v)` on a line pair (R10). -/
def Lines.drive (l : Line) (v : Bit) (p : Lines) : Lines :=
  match l with
  | .scl => { p with scl := v }
  | .sda => { p with sda := v }

/-- `Drive(line, v)` on the block, the only way it affects the bus (R10, R21). -/
def Block.drive (l : Line) (v : Bit) (b : Block tSettle) : Block tSettle :=
  match l with
  | .scl => { b with scl := v }
  | .sda => { b with sda := v }

/-- A phase's action on a line pair; a phase outside the tables of R110 has none (log entry 8). -/
def Lines.act (a : Option LineAction) (p : Lines) : Lines :=
  match a with
  | some x => p.drive x.line x.value
  | none => p

/-- A phase's action on the block; a phase outside the tables of R110 has none (log entry 8). -/
def Block.act (a : Option LineAction) (b : Block tSettle) : Block tSettle :=
  match a with
  | some x => b.drive x.line x.value
  | none => b

/-- The level of the data line: low if the block or the peer drives it low (R23). -/
def wiredAnd (sda peerSda : Bit) : Bit := sda && peerSda

/-- `Sample()`: the data line's level in the current cycle (R10, R23). -/
def sample (inp : PortIn) : Bit := inp.sdaIn

/-- `raise NackHalt`: the only change is `st <- HALT`; nothing is saved and no line is touched (R160, R165). -/
def Block.raiseNackHalt (b : Block tSettle) : Block tSettle := { b with st := .halt }

/-- The only way out of the halt, reset: every register takes its reset value (R101, R166, R180). -/
def Block.applyReset (_ : Block tSettle) : Block tSettle := Block.reset

/-- Completion of a command: `st <- IDLE` and nothing else (R107). -/
def Block.complete (b : Block tSettle) : Block tSettle := { b with st := .idle }

end Sys2Proof.Machine
end

