-- ==== Sys2Proof/Machine/Operands.lean ====
section
/-! DEFINITION. Operands and the bit arithmetic on them: latching (R82, R102), the bit SEND puts on the line
(R62, R110) and the receive shift (R30, R114). -/

namespace Sys2Proof.Machine

variable {tSettle : Nat}

/-- The operand latch of acceptance (R82, R102): SEND writes `txb`, READ writes `ackarg`, START and STOP
write neither. -/
def Block.latch (i : Instr) (b : Block tSettle) : Block tSettle :=
  match i with
  | .start => b
  | .stop => b
  | .send byte => { b with txb := byte }
  | .read ack => { b with ackarg := ack }

/-- `txb[7-k]`, the bit of clock pulse `k`, most significant first (R62, R114). -/
def sendBit (txb : Byte) (k : Nat) : Bit := txb.getLsbD (7 - k)

/-- `zext_8` of one bit (R10). -/
def zext8 (v : Bit) : Byte := if v then 1 else 0

/-- `(rxb << 1)[7:0] | zext_8(v)` (R30, R105). -/
def shiftIn (rxb : Byte) (v : Bit) : Byte := (rxb <<< 1) ||| zext8 v

end Sys2Proof.Machine
end

