-- ==== Sys2Proof/Machine/Flags.lean ====
section
/-! DEFINITION. The status bit `nak` (R31, R36) and the outputs, functions of the state (R22, R33, R37). -/

namespace Sys2Proof.Machine

variable {tSettle : Nat}

/-- `nak <- Sample()` (R31, R105). -/
def Block.captureNak (v : Bit) (b : Block tSettle) : Block tSettle := { b with nak := v }

/-- `rxb <- (rxb << 1)[7:0] | Sample()` (R30, R105). -/
def Block.captureBit (v : Bit) (b : Block tSettle) : Block tSettle := { b with rxb := shiftIn b.rxb v }

/-- Output `ready` (R33). -/
def Block.ready (b : Block tSettle) : Bit := decide (b.st = .idle)

/-- Output `halted`, the failure signal (R33, R160). -/
def Block.halted (b : Block tSettle) : Bit := decide (b.st = .halt)

/-- Output `rx_data` (R33). -/
def Block.rxData (b : Block tSettle) : Byte := b.rxb

/-- Output `scl_out` (R22). -/
def Block.sclOut (b : Block tSettle) : Bit := b.scl

/-- Output `sda_out` (R22). -/
def Block.sdaOut (b : Block tSettle) : Bit := b.sda

/-- The exception number of R160, for a reader that wants one: 1 is `NackHalt`, 0 is none (D19). -/
def Block.cause (b : Block tSettle) : Nat := if b.halted then 1 else 0

end Sys2Proof.Machine
end

