-- ==== Sys2Proof/Machine/Phases.lean ====
section
/-! DEFINITION. The phase tables (R110) and the sampling phases (R111), one table per command. -/

namespace Sys2Proof.Machine

/-- `Drive(scl, v)` as a table entry. -/
def driveScl (v : Bit) : Option LineAction := some ⟨.scl, v⟩

/-- `Drive(sda, v)` as a table entry. -/
def driveSda (v : Bit) : Option LineAction := some ⟨.sda, v⟩

/-- START's table: data low, then clock low (R110, R130). -/
def startAction (ph : Nat) : Option LineAction :=
  match ph with
  | 0 => driveSda false
  | 1 => driveScl false
  | _ => none

/-- STOP's table: clock released, then data released (R110, R131). -/
def stopAction (ph : Nat) : Option LineAction :=
  match ph with
  | 0 => driveScl true
  | 1 => driveSda true
  | _ => none

/-- SEND's table: for each bit the data line then a clock pulse, then the acknowledgment pulse with the data
line released (R110, R140). -/
def sendAction (txb : Byte) (ph : Nat) : Option LineAction :=
  if ph < 24 then
    match ph % 3 with
    | 0 => driveSda (sendBit txb (ph / 3))
    | 1 => driveScl true
    | _ => driveScl false
  else if ph = 24 then driveSda true
  else if ph = 25 then driveScl true
  else if ph = 26 then driveScl false
  else none

/-- READ's table: the data line released, eight clock pulses, then the acknowledgment and a ninth pulse
(R110, R150). -/
def readAction (ackarg : Bit) (ph : Nat) : Option LineAction :=
  if ph = 0 then driveSda true
  else if ph ≤ 16 then (if ph % 2 = 1 then driveScl true else driveScl false)
  else if ph = 17 then driveSda (!ackarg)
  else if ph = 18 then driveScl true
  else if ph = 19 then driveScl false
  else none

/-- `action(op, ph, txb, ackarg)` (R110). -/
def action (op : Opcode) (ph : Nat) (txb : Byte) (ackarg : Bit) : Option LineAction :=
  match op with
  | .start => startAction ph
  | .stop => stopAction ph
  | .send => sendAction txb ph
  | .read => readAction ackarg ph

/-- `last(op)`, the index of a command's last phase (R110). -/
def lastPhase : Opcode → Nat
  | .start => 1
  | .stop => 1
  | .send => 26
  | .read => 19

/-- `samples(op, ph)` (R111). -/
def samples (op : Opcode) (ph : Nat) : Bool :=
  match op with
  | .start => false
  | .stop => false
  | .send => decide (ph = 25)
  | .read => decide (ph % 2 = 1) && decide (ph ≤ 15)

end Sys2Proof.Machine
end

