-- ==== Sys2Proof/Machine/Sequencer.lean ====
section
/-! DEFINITION. The cycle-level step of the block, `step(T_SETTLE, S, in)` of R100, rule by rule. The parameter
`T_SETTLE` is the index of the block's type. -/

namespace Sys2Proof.Machine

variable {tSettle : Nat}

/-- `T_SETTLE - 1`, the number loaded into the delay counter (R27); it fits the counter's `W_DLY` bits. -/
def loadValue (tSettle : Nat) : BitVec (Config.wDly tSettle) := BitVec.ofNat _ (tSettle - 1)

/-- Begin phase `ph`: its line action takes effect and the delay is loaded (R102, R106, R119). -/
def Block.beginPhase (ph : BitVec 5) (b : Block tSettle) : Block tSettle :=
  ({ b with ph := ph, dly := loadValue tSettle }).act (action b.op ph.toNat b.txb b.ackarg)

/-- Acceptance of a command (R102). -/
def Block.accept (i : Instr) (b : Block tSettle) : Block tSettle :=
  ({ b.latch i with op := i.opcode, st := .run }).beginPhase 0

/-- The sample at the end of a phase (R105). -/
def Block.takeSample (inp : PortIn) (b : Block tSettle) : Block tSettle :=
  if samples b.op b.ph.toNat then
    match b.op with
    | .start => b
    | .stop => b
    | .send => b.captureNak (sample inp)
    | .read => b.captureBit (sample inp)
  else b

/-- The end of a command's last phase: completion, or the fatal halt (R107). -/
def Block.endCommand (b : Block tSettle) : Block tSettle :=
  if b.op = .send ∧ b.nak = true then b.raiseNackHalt else b.complete

/-- One edge of a running command: wait out the delay (R104), end a phase with its sample and begin the next
(R105, R106), or end the command (R107). -/
def Block.runEdge (inp : PortIn) (b : Block tSettle) : Block tSettle :=
  if b.dly ≠ 0 then { b with dly := b.dly - 1 }
  else if b.ph.toNat ≠ lastPhase b.op then (b.takeSample inp).beginPhase (b.ph + 1)
  else b.endCommand

/-- One edge in IDLE: accept the command presented (R102), or hold (R103). -/
def Block.idleEdge (inp : PortIn) (b : Block tSettle) : Block tSettle :=
  if inp.cmdValid then b.accept (decode inp.cmdOp inp.cmdArg) else b

/-- `step(T_SETTLE, S, in)`: one rising edge of `clk` (R100), reset first (R101), then by state; HALT holds
(R108). -/
def Block.step (inp : PortIn) (b : Block tSettle) : Block tSettle :=
  if inp.rst then b.applyReset
  else
    match b.st with
    | .idle => b.idleEdge inp
    | .run => b.runEdge inp
    | .halt => b

end Sys2Proof.Machine
end

