-- ==== Sys2Proof/Machine/Environment.lean ====
section
/-! DEFINITION. The block in its environment: where the inputs of a cycle come from (R6, R23), one clock edge
of the machine, and a whole command run edge by edge. -/

namespace Sys2Proof.Machine

variable {tSettle : Nat}

/-- A cycle in which the host asserts nothing: no reset and no command; the peer's bit is given. -/
def Stimulus.quiet (peerSda : Bit) : Stimulus where
  rst := false
  cmdValid := false
  cmdOp := 0
  cmdArg := 0
  peerSda := peerSda

/-- A cycle in which the host presents a word on `cmd_op` and `cmd_arg` (R80, R83). -/
def Stimulus.present (w : CmdWord) (peerSda : Bit) : Stimulus where
  rst := false
  cmdValid := true
  cmdOp := opField w
  cmdArg := argField w
  peerSda := peerSda

/-- The ports the block sees: `sda_in = S.sda & peer_sda` (R23). -/
def Stimulus.ports (x : Stimulus) (sda : Bit) : PortIn where
  rst := x.rst
  cmdValid := x.cmdValid
  cmdOp := x.cmdOp
  cmdArg := x.cmdArg
  sdaIn := wiredAnd sda x.peerSda

/-- The environment's choice `k` cycles from now: the list's, and past its end a quiet host and a free bit of
the peer (R23, log entries 2, 3). -/
def Circuit.stimulusAt (c : Circuit tSettle) (k : Nat) : Stimulus :=
  (c.inputs[k]?).getD (Stimulus.quiet (Config.peerSda (c.cycle + k)))

/-- Take one input cycle from the environment. -/
def Circuit.consume (c : Circuit tSettle) : Circuit tSettle :=
  { c with inputs := c.inputs.tail, cycle := c.cycle + 1 }

/-- Give the block its registers after an edge and record the line pair of the new cycle. -/
def Circuit.commit (b : Block tSettle) (c : Circuit tSettle) : Circuit tSettle :=
  { c with block := b, bus := c.bus ++ [b.lines] }

/-- One rising edge of `clk` with the environment's next choice (R100). -/
def Circuit.clockEdge (c : Circuit tSettle) : Circuit tSettle :=
  c.consume.commit (c.block.step ((c.stimulusAt 0).ports c.block.sda))

/-- `n` clock edges. -/
def Circuit.clockEdges : Nat → Circuit tSettle → Circuit tSettle
  | 0, c => c
  | n + 1, c => Circuit.clockEdges n c.clockEdge

/-- At most `n` clock edges, until the block leaves RUN. -/
def Circuit.runBusy : Nat → Circuit tSettle → Circuit tSettle
  | 0, c => c
  | n + 1, c => if c.block.st = .run then Circuit.runBusy n c.clockEdge else c

/-- The accepting edge of a command, its input cycle already taken (R102). -/
def Circuit.acceptEdge (i : Instr) (c : Circuit tSettle) : Circuit tSettle :=
  c.commit (c.block.accept i)

/-- How many cycles a command keeps `ready` at 0 (R115). -/
def busyCycles (op : Opcode) (tSettle : Nat) : Nat := (lastPhase op + 1) * tSettle

/-- A command presented to the block. When `ready = 1` it is accepted (R102) and run edge by edge until the
block leaves RUN: to IDLE, to HALT, or by a reset the environment asserts meanwhile (R107, R183). When
`ready = 0` it is ignored entirely (R83). -/
def Circuit.perform (i : Instr) (c : Circuit tSettle) : Circuit tSettle :=
  if c.block.ready then (c.acceptEdge i).runBusy (busyCycles i.opcode tSettle) else c

/-- The command the block accepts at the next edge, if it accepts one (R83), with the circuit after that
edge's input cycle is taken. -/
def Circuit.fetch (c : Circuit tSettle) : Option (Instr × Circuit tSettle) :=
  let x := c.stimulusAt 0
  if x.rst = false ∧ c.block.ready = true ∧ x.cmdValid = true then some (decode x.cmdOp x.cmdArg, c.consume)
  else none

/-- Present a word in the next cycle to a block that is ready, with the environment's other choices after it
(log entry 11). -/
def Circuit.presentNext (w : CmdWord) (c : Circuit tSettle) : Circuit tSettle :=
  { c with block := { c.block with st := .idle }, inputs := Stimulus.present w true :: c.inputs }

/-- One clock edge of the machine, at its own `T_SETTLE` (R100). -/
def State.clockEdge (s : State) : State := s.put s.circuit.clockEdge

/-- A command presented to the machine, at its own `T_SETTLE`. -/
def State.perform (i : Instr) (s : State) : State := s.put (s.circuit.perform i)

end Sys2Proof.Machine
end

