-- ==== Sys2Proof/Machine/Framing.lean ====
section
/-! DEFINITION. The meanings of the framing commands START (R130) and STOP (R131). -/

namespace Sys2Proof.Machine

/-- START: pull the data line low, then the clock line low, each with its settle delay (R130). -/
def execStart (s : State) : Host.Outcome State Fault Refusal := .next (s.perform .start)

/-- STOP: release the clock line, then the data line, each with its settle delay (R131). -/
def execStop (s : State) : Host.Outcome State Fault Refusal := .next (s.perform .stop)

end Sys2Proof.Machine
end

