-- ==== Sys2Proof/Machine/Read.lean ====
section
/-! DEFINITION. The meaning of READ (R150, R151). -/

namespace Sys2Proof.Machine

/-- READ: release the data line, sample it on eight clock pulses most significant bit first, then acknowledge
or not on a ninth pulse (R150). -/
def execRead (ack : Bit) (s : State) : Host.Outcome State Fault Refusal := .next (s.perform (.read ack))

end Sys2Proof.Machine
end

