-- ==== Sys2Proof/Machine/Send.lean ====
section
/-! DEFINITION. The meaning of SEND (R140, R141). -/

namespace Sys2Proof.Machine

/-- SEND: shift the byte out most significant bit first, release the data line, sample the acknowledgment on
the ninth pulse, and halt for ever when it read high (R140, R141, R160). -/
def execSend (byte : Byte) (s : State) : Host.Outcome State Fault Refusal := .next (s.perform (.send byte))

end Sys2Proof.Machine
end

