-- ==== Sys2Proof/Machine/Dispatch.lean ====
section
/-! DEFINITION. One arm per command: the meaning that carries it out. -/

namespace Sys2Proof.Machine

def exec (i : Instr) (s : State) : Host.Outcome State Fault Refusal :=
  match i with
  | .start => Sys2Proof.Machine.execStart s
  | .stop => Sys2Proof.Machine.execStop s
  | .send byte => Sys2Proof.Machine.execSend byte s
  | .read ack => Sys2Proof.Machine.execRead ack s

end Sys2Proof.Machine
end

