-- ==== Sys2Proof/Machine/Step.lean ====
section
/-! DEFINITION. One step of the machine (log entry 6): the whole command the block accepts at the next edge, or,
when it accepts none, one clock edge (R100, R118). -/

namespace Sys2Proof.Machine

/-- One step: run the command accepted at the next edge (R102, R116), or else take one clock edge (R101, R103
to R108). -/
def step (s : State) : Host.Outcome State Fault Refusal :=
  match s.circuit.fetch with
  | some (i, c) => exec i (s.put c)
  | none => .next s.clockEdge

/-- The state with a word presented on the command port in the next cycle, to a block that is ready
(log entry 11). The ports are parallel (R80), so the table's bits are the word's bits. -/
def State.withFetchWord (s : State) (nbits w : Nat) : State :=
  s.put (s.circuit.presentNext (BitVec.ofNat 10 (w % 2 ^ nbits)))

end Sys2Proof.Machine
end

