-- ==== Sys2Proof/Machine/Operation.lean ====
section
/-! DEFINITION. The operation-level, untimed semantics (R116) and the runs of programs (R116, R197). -/

namespace Sys2Proof.Machine

/-- What a command's untimed execution carries: the line pair, `rxb`, `nak`, the samples drawn so far and the
trace so far (R116). -/
structure OpRun where
  lines : Lines
  rxb : Byte
  nak : Bit
  drawn : Nat
  trace : List Lines
deriving DecidableEq, Repr

/-- How a command ends at the operation level (R116). -/
inductive OpOutcome where
  /-- The command returns to the host. -/
  | done
  /-- The command never returns (`NackHalt`). -/
  | halt
deriving DecidableEq, Repr

/-- The sample of a phase, stored by opcode: SEND's in `nak`, READ's shifted into `rxb` (R116). -/
def OpRun.record (op : Opcode) (v : Bit) (r : OpRun) : OpRun :=
  match op with
  | .start => r
  | .stop => r
  | .send => { r with nak := v, drawn := r.drawn + 1 }
  | .read => { r with rxb := shiftIn r.rxb v, drawn := r.drawn + 1 }

/-- One phase at the operation level: the line action, the trace, and the sample if there is one (R116). -/
def opPhase (op : Opcode) (txb : Byte) (ackarg : Bit) (peer : Nat → Bit) (r : OpRun) (ph : Nat) : OpRun :=
  let lines := r.lines.act (action op ph txb ackarg)
  let r' := { r with lines := lines, trace := r.trace ++ [lines] }
  if samples op ph then r'.record op (wiredAnd lines.sda (peer r.drawn)) else r'

/-- The phases 0 to `n - 1` of a command in order. -/
def opPhases (op : Opcode) (txb : Byte) (ackarg : Bit) (peer : Nat → Bit) (r : OpRun) : Nat → OpRun
  | 0 => r
  | n + 1 => opPhase op txb ackarg peer (opPhases op txb ackarg peer r n) n

/-- All phases of a command (R116). -/
def opRun (op : Opcode) (txb : Byte) (ackarg : Bit) (peer : Nat → Bit) (r : OpRun) : OpRun :=
  opPhases op txb ackarg peer r (lastPhase op + 1)

/-- The outcome of a command whose last `nak` is given (R116). -/
def opOutcome (op : Opcode) (nak : Bit) : OpOutcome :=
  if op = .send ∧ nak = true then .halt else .done

/-- `exec(op, txb, ackarg, lines, rxb, nak, peer)` of R116: the outcome, and the lines, `rxb`, `nak` and trace. -/
def opExec (op : Opcode) (txb : Byte) (ackarg : Bit) (lines : Lines) (rxb : Byte) (nak : Bit)
    (peer : Nat → Bit) : OpOutcome × OpRun :=
  let r := opRun op txb ackarg peer ⟨lines, rxb, nak, 0, []⟩
  (opOutcome op r.nak, r)

/-- SEND's byte operand; zero for the commands that have none, which never read it (R82). -/
def opTxb : Instr → Byte
  | .start => 0
  | .stop => 0
  | .send b => b
  | .read _ => 0

/-- READ's acknowledge operand; zero for the commands that have none, which never read it (R82). -/
def opAckarg : Instr → Bit
  | .start => false
  | .stop => false
  | .send _ => false
  | .read a => a

/-- One command at the operation level (R116). -/
def opCommand (i : Instr) (peer : Nat → Bit) (r : OpRun) : OpOutcome × OpRun :=
  let r' := opRun i.opcode (opTxb i) (opAckarg i) peer r
  (opOutcome i.opcode r'.nak, r')

/-- A program: thread the lines and registers through its commands, stopping at the first HALT (R116, R197).
The peer's samples are numbered through the whole run. -/
def opProgram (peer : Nat → Bit) : Program → OpRun → OpOutcome × OpRun
  | [], r => (.done, r)
  | c :: cs, r =>
    match opCommand c peer r with
    | (.halt, r') => (.halt, r')
    | (.done, r') => opProgram peer cs r'

/-- The line pair after the actions of phases 0 to `n`, from the pair a command started with (R41 item 6). -/
def linesThrough (op : Opcode) (txb : Byte) (ackarg : Bit) (p : Lines) : Nat → Lines
  | 0 => p.act (action op 0 txb ackarg)
  | n + 1 => (linesThrough op txb ackarg p n).act (action op (n + 1) txb ackarg)

/-- The phase in which a command takes its sample number `j` (R111). -/
def samplePhase (op : Opcode) (j : Nat) : Nat :=
  match op with
  | .start => 0
  | .stop => 0
  | .send => 25
  | .read => 1 + 2 * j

end Sys2Proof.Machine
end

