-- ==== Sys2Proof/Safety.lean ====
section
/-! DEFINITION. The terms claims are stated in: the invariants of R41, windows without reset, and the bus
events and trace properties of `70_reset_and_hazards.md` and `95_test_vectors.md`. -/

namespace Sys2Proof.Machine

/-- The invariants of R41 for a block with settle delay `tSettle`. Item 1 is carried by the type of `st`, item 7 is
a statement about steps. -/
structure BlockInv {tSettle : Nat} (b : Block tSettle) : Prop where
  /-- Item 2, first half: outside RUN the delay counter is 0. -/
  dly_idle : b.st ≠ .run → b.dly = 0
  /-- Item 2, second half: in RUN it is at most `T_SETTLE - 1`. -/
  dly_run : b.st = .run → b.dly.toNat ≤ tSettle - 1
  /-- Item 3: in RUN the phase index is one of the command's phases. -/
  ph_run : b.st = .run → b.ph.toNat ≤ lastPhase b.op
  /-- Item 4: in a sampling phase both lines are released. -/
  sampling : b.st = .run → samples b.op b.ph.toNat = true → b.sda = true ∧ b.scl = true
  /-- Item 5: the halt is the end of an unacknowledged SEND, lines `01`. -/
  halted : b.st = .halt → b.op = .send ∧ b.ph = 26 ∧ b.nak = true ∧ b.scl = false ∧ b.sda = true
  /-- Item 6: in RUN the lines are those the actions so far give from some starting pair. -/
  lines_run : b.st = .run → ∃ p : Lines, b.lines = linesThrough b.op b.txb b.ackarg p b.ph.toNat

/-- The invariant of the machine: R41 for its block, at its own `T_SETTLE`. -/
def State.Inv (s : State) : Prop := BlockInv s.circuit.block

/-- The environment asserts no reset in the next `n` cycles. -/
def Circuit.noReset {tSettle : Nat} (c : Circuit tSettle) (n : Nat) : Prop :=
  ∀ k < n, (c.stimulusAt k).rst = false

/-- The peer's bit in the cycle in which a command that begins its first phase now ends phase `ph` (R115). -/
def Circuit.peerAtPhaseEnd {tSettle : Nat} (c : Circuit tSettle) (ph : Nat) : Bit :=
  (c.stimulusAt ((ph + 1) * tSettle - 1)).peerSda

/-- The peer's bit at sample number `j` of a command that begins its first phase now (R111, R115). -/
def Circuit.peerSample {tSettle : Nat} (c : Circuit tSettle) (op : Opcode) (j : Nat) : Bit :=
  c.peerAtPhaseEnd (samplePhase op j)

/-- The line pairs a command holds, cycle by cycle: each phase's pair for `tSettle` cycles (R118, R119). -/
def wireTrace (op : Opcode) (txb : Byte) (ackarg : Bit) (p : Lines) (tSettle : Nat) : List Lines :=
  (List.range (lastPhase op + 1)).flatMap fun ph =>
    List.replicate tSettle (linesThrough op txb ackarg p ph)

/-- The data line falls while the clock line is high, between two successive pairs (G1). -/
def startCondition (p q : Lines) : Prop := p.scl = true ∧ q.scl = true ∧ p.sda = true ∧ q.sda = false

/-- The data line rises while the clock line is high, between two successive pairs (G1). -/
def stopCondition (p q : Lines) : Prop := p.scl = true ∧ q.scl = true ∧ p.sda = false ∧ q.sda = true

/-- A relation holds between every two neighbours of a trace that begins at a given pair. -/
def everyEdge (r : Lines → Lines → Prop) : Lines → List Lines → Prop
  | _, [] => True
  | p, q :: qs => r p q ∧ everyEdge r q qs

/-- Data changes only between two phases in which the clock line is driven low
(`95_test_vectors.md` section 5, property 5). -/
def dataStable (p q : Lines) : Prop := p.sda ≠ q.sda → p.scl = false ∧ q.scl = false

end Sys2Proof.Machine
end

