-- ==== Sys2Proof/Certificates/Slice0/Obligations.lean ====
section
/-! DEFINITION. The statements for the provers. Each docstring names the rules of `spec/` it rests on.

Statements about `Block.step` are about one rising edge of `clk` (R100) of a block with any settle delay `t` in
place of `T_SETTLE`, any inputs and any state. Statements about `exec` are about a whole command (R116, R118); the
environment's choices stand in the state (log entries 2 and 3), so a statement for every state holds for every
host and every peer. `⟨reload, c⟩` is the machine with the circuit `c` and `T_SETTLE = reload + 1`. -/

open Sys2Proof Sys2Proof.Machine

/-! ## Encoding -/

/-- Decoding the word of a command gives the command back, for every operand value (R80, R81, R82, R86). -/
def Obligations.DecodeEncodeRoundTrip : Prop := ∀ i : Instr, decodeWord (encode i) = i

/-- Encoding what a word decodes to gives the word with its ignored bits cleared (R82, R84, R86). -/
def Obligations.EncodeDecodeClearsIgnoredBits : Prop :=
  ∀ w : CmdWord, encode (decodeWord w) = w &&& usedBits (decodeWord w).opcode

/-- Every word matches exactly one row of the opcode map, the row of the command it decodes to (R81). -/
def Obligations.EveryWordMatchesOneRow : Prop :=
  ∀ (w : CmdWord) (o : Opcode), matchesRow o w = true ↔ o = (decodeWord w).opcode

/-- Ignored operand bits change nothing, and no word is refused (R84). -/
def Obligations.IgnoredOperandBits : Prop :=
  (∀ (t : Nat) (b : Block t) (x : PortIn) (a : Byte),
    (decodeOpcode x.cmdOp = .start ∨ decodeOpcode x.cmdOp = .stop →
      b.step { x with cmdArg := a } = b.step x) ∧
    (decodeOpcode x.cmdOp = .read → a.getLsbD 0 = x.cmdArg.getLsbD 0 →
      b.step { x with cmdArg := a } = b.step x)) ∧
  (∀ w : CmdWord, ∃ i : Instr, decodeNat w.toNat = .ok i)

/-- The encoding vectors of `95_test_vectors.md` section 2. -/
def Obligations.SpecWordsDecode : Prop :=
  decodeWord 0x000 = .start ∧ decodeWord 0x0FF = .start ∧ decodeWord 0x100 = .stop ∧
  decodeWord 0x1A5 = .stop ∧ decodeWord 0x200 = .send 0x00 ∧ decodeWord 0x2A5 = .send 0xA5 ∧
  decodeWord 0x2FF = .send 0xFF ∧ decodeWord 0x240 = .send 0x40 ∧ decodeWord 0x300 = .read false ∧
  decodeWord 0x301 = .read true ∧ decodeWord 0x3FE = .read false ∧ decodeWord 0x3FF = .read true

/-! ## Reset and outputs -/

/-- An edge with `rst = 1` gives `RESET_STATE`, whatever the state and the other inputs (R101). -/
def Obligations.ResetEdge : Prop :=
  ∀ (t : Nat) (x : PortIn) (b : Block t), x.rst = true →
    b.step x = { scl := true, sda := true, st := .idle, op := .start, ph := 0, dly := 0,
                   txb := 0x00, ackarg := false, rxb := 0x00, nak := false }

/-- The machine after reset: the bus-idle condition and the outputs R40 lists. -/
def Obligations.ResetStateIsBusIdle : Prop :=
  State.reset.circuit.block =
    { scl := true, sda := true, st := .idle, op := .start, ph := 0, dly := 0,
      txb := 0x00, ackarg := false, rxb := 0x00, nak := false } ∧
  State.reset.circuit.block.ready = true ∧ State.reset.circuit.block.halted = false ∧
  State.reset.circuit.block.rxData = 0x00 ∧ State.reset.circuit.block.sclOut = true ∧
  State.reset.circuit.block.sdaOut = true

/-- A step of the machine in a cycle with `rst = 1` is the reset edge, in every state (R101, R180). The fields
`reload`, `inputs`, `cycle` and `bus` are the model's own (log entries 1, 2, 4, 5). -/
def Obligations.MachineResetStep : Prop :=
  ∀ (reload : Nat) (c : Circuit (reload + 1)), (c.stimulusAt 0).rst = true →
    step ⟨reload, c⟩ = .next ⟨reload, { block := Block.reset, inputs := c.inputs.tail,
                                        cycle := c.cycle + 1, bus := c.bus ++ [⟨true, true⟩] }⟩

/-- The outputs are functions of the state (R22, R33): `ready` in IDLE, `halted` in HALT, never both, neither
in RUN. -/
def Obligations.OutputFunctions : Prop :=
  ∀ (t : Nat) (b : Block t), (b.ready = true ↔ b.st = .idle) ∧ (b.halted = true ↔ b.st = .halt) ∧
    ¬(b.ready = true ∧ b.halted = true) ∧
    (b.st = .run → b.ready = false ∧ b.halted = false) ∧
    b.rxData = b.rxb ∧ b.sclOut = b.scl ∧ b.sdaOut = b.sda

/-! ## The phase tables -/

/-- The line actions, the sampling column and the last phases of the four commands, row by row (R110). -/
def Obligations.PhaseTables : Prop :=
  ∀ (txb : Byte) (ackarg : Bit),
    lastPhase .start = 1 ∧ lastPhase .stop = 1 ∧ lastPhase .send = 26 ∧ lastPhase .read = 19 ∧
    action .start 0 txb ackarg = some ⟨.sda, false⟩ ∧ action .start 1 txb ackarg = some ⟨.scl, false⟩ ∧
    action .stop 0 txb ackarg = some ⟨.scl, true⟩ ∧ action .stop 1 txb ackarg = some ⟨.sda, true⟩ ∧
    (∀ k < 8, action .send (3 * k) txb ackarg = some ⟨.sda, txb.getLsbD (7 - k)⟩ ∧
      action .send (3 * k + 1) txb ackarg = some ⟨.scl, true⟩ ∧
      action .send (3 * k + 2) txb ackarg = some ⟨.scl, false⟩) ∧
    action .send 24 txb ackarg = some ⟨.sda, true⟩ ∧ action .send 25 txb ackarg = some ⟨.scl, true⟩ ∧
    action .send 26 txb ackarg = some ⟨.scl, false⟩ ∧
    action .read 0 txb ackarg = some ⟨.sda, true⟩ ∧
    (∀ k < 8, action .read (1 + 2 * k) txb ackarg = some ⟨.scl, true⟩ ∧
      action .read (2 + 2 * k) txb ackarg = some ⟨.scl, false⟩) ∧
    action .read 17 txb ackarg = some ⟨.sda, !ackarg⟩ ∧
    action .read 18 txb ackarg = some ⟨.scl, true⟩ ∧ action .read 19 txb ackarg = some ⟨.scl, false⟩ ∧
    (∀ ph ≤ 1, samples .start ph = false ∧ samples .stop ph = false) ∧
    (∀ ph ≤ 26, samples .send ph = decide (ph = 25)) ∧
    samples .read 0 = false ∧ (∀ k < 8, samples .read (1 + 2 * k) = true ∧ samples .read (2 + 2 * k) = false) ∧
    samples .read 17 = false ∧ samples .read 18 = false ∧ samples .read 19 = false

/-- Which phases sample (R111): SEND's phase 25 and READ's odd phases 1 to 15, no other; one sample in a SEND and
eight in a READ; and each sampling phase releases the clock line. -/
def Obligations.SamplingPhases : Prop :=
  (∀ (op : Opcode) (ph : Nat), samples op ph = true ↔
    (op = .send ∧ ph = 25) ∨ (op = .read ∧ ph ∈ [1, 3, 5, 7, 9, 11, 13, 15])) ∧
  ((List.range (lastPhase .send + 1)).filter (samples .send)).length = 1 ∧
  ((List.range (lastPhase .read + 1)).filter (samples .read)).length = 8 ∧
  (∀ (op : Opcode) (ph : Nat) (txb : Byte) (ackarg : Bit), samples op ph = true →
    action op ph txb ackarg = some ⟨.scl, true⟩)

/-! ## One edge of the block -/

/-- Acceptance (R102): the operand is latched, the command's phase 0 begins with `T_SETTLE - 1` in the delay counter,
and its line action takes effect at this edge; nothing else changes, and `sda_in` is ignored. -/
def Obligations.AcceptanceEdge : Prop :=
  ∀ (t : Nat) (x : PortIn) (b : Block t), x.rst = false → b.st = .idle → x.cmdValid = true →
    (b.step x).dly.toNat = t - 1 ∧
    b.step x =
      match decodeOpcode x.cmdOp with
      | .start => { b with op := .start, ph := 0, dly := loadValue t, st := .run, sda := false }
      | .stop => { b with op := .stop, ph := 0, dly := loadValue t, st := .run, scl := true }
      | .send => { b with op := .send, ph := 0, dly := loadValue t, st := .run, txb := x.cmdArg,
                          sda := x.cmdArg.getLsbD 7 }
      | .read => { b with op := .read, ph := 0, dly := loadValue t, st := .run,
                          ackarg := x.cmdArg.getLsbD 0, sda := true }

/-- Idle (R103): with no command and no reset nothing changes, for any number of edges. -/
def Obligations.IdleHolds : Prop :=
  (∀ (t : Nat) (x : PortIn) (b : Block t), x.rst = false → b.st = .idle → x.cmdValid = false →
    b.step x = b) ∧
  (∀ (t n : Nat) (c : Circuit t), c.block.st = .idle →
    (∀ k < n, (c.stimulusAt k).rst = false ∧ (c.stimulusAt k).cmdValid = false) →
    (c.clockEdges n).block = c.block)

/-- Waiting out the delay (R104): the counter counts down by one and nothing else changes, whatever the inputs other
than `rst`. -/
def Obligations.DelayEdge : Prop :=
  ∀ (t : Nat) (x : PortIn) (b : Block t), x.rst = false → b.st = .run → b.dly ≠ 0 →
    b.step x = { b with dly := b.dly - 1 } ∧ (b.dly - 1).toNat = b.dly.toNat - 1

/-- The sample at the end of a phase (R105): SEND captures `sda_in` in `nak`, READ shifts it into `rxb`, at the
edge that begins the next phase; no command samples in its last phase. -/
def Obligations.SampleEdge : Prop :=
  (∀ op : Opcode, samples op (lastPhase op) = false) ∧
  (∀ (t : Nat) (x : PortIn) (b : Block t), x.rst = false → b.st = .run → b.dly = 0 →
    samples b.op b.ph.toNat = true →
    (b.op = .send → (b.step x).nak = x.sdaIn ∧ (b.step x).rxb = b.rxb) ∧
    (b.op = .read → (b.step x).rxb = (b.rxb <<< 1) ||| (if x.sdaIn then 1 else 0) ∧
      (b.step x).nak = b.nak) ∧
    (b.step x).ph.toNat = b.ph.toNat + 1 ∧ (b.step x).dly.toNat = t - 1 ∧
    (b.step x).lines = b.lines.act (action b.op (b.ph.toNat + 1) b.txb b.ackarg) ∧
    (b.step x).st = .run ∧ (b.step x).op = b.op ∧ (b.step x).txb = b.txb ∧
    (b.step x).ackarg = b.ackarg)

/-- The end of a phase that is not the last (R106): the next phase begins with its line action; `st`, `op`, `txb`
and `ackarg` are unchanged and the command ports are ignored. The phase is one of the command's, as R41 item 3
says it is (a phase index past the last is the model's choice, log entry 8). -/
def Obligations.PhaseEdge : Prop :=
  ∀ (t : Nat) (x : PortIn) (b : Block t), x.rst = false → b.st = .run → b.dly = 0 →
    b.ph.toNat < lastPhase b.op →
    (b.step x).ph.toNat = b.ph.toNat + 1 ∧ (b.step x).dly.toNat = t - 1 ∧
    (b.step x).lines = b.lines.act (action b.op (b.ph.toNat + 1) b.txb b.ackarg) ∧
    (b.step x).st = .run ∧ (b.step x).op = b.op ∧ (b.step x).txb = b.txb ∧
    (b.step x).ackarg = b.ackarg ∧
    (∀ (v : Bit) (c : BitVec 2) (a : Byte),
      b.step { x with cmdValid := v, cmdOp := c, cmdArg := a } = b.step x)

/-- The end of the last phase (R107): HALT for a SEND whose `nak` is 1, otherwise IDLE; nothing else changes and
no command is accepted at this edge. -/
def Obligations.LastPhaseEdge : Prop :=
  ∀ (t : Nat) (x : PortIn) (b : Block t), x.rst = false → b.st = .run → b.dly = 0 →
    b.ph.toNat = lastPhase b.op →
    b.step x = if b.op = .send ∧ b.nak = true then { b with st := .halt } else { b with st := .idle }

/-- Halt (R108): without reset nothing changes, at one edge with any other inputs, over any number of edges, and
in a step of the machine; `ready` is 0 and `halted` 1; the lines are `01` where R41 holds; only reset leaves it. -/
def Obligations.HaltHolds : Prop :=
  (∀ (t : Nat) (x : PortIn) (b : Block t), b.st = .halt →
    (x.rst = false → b.step x = b) ∧ ((b.step x).st ≠ .halt → x.rst = true)) ∧
  (∀ (t n : Nat) (c : Circuit t), c.block.st = .halt → c.noReset n →
    (c.clockEdges n).block = c.block ∧ (c.clockEdges n).block.ready = false ∧
    (c.clockEdges n).block.halted = true ∧
    (BlockInv c.block → (c.clockEdges n).block.scl = false ∧ (c.clockEdges n).block.sda = true)) ∧
  (∀ (reload : Nat) (c : Circuit (reload + 1)), c.block.st = .halt → (c.stimulusAt 0).rst = false →
    ∃ c' : Circuit (reload + 1), step ⟨reload, c⟩ = .next ⟨reload, c'⟩ ∧ c'.block = c.block)

/-- The transitions of the sequencer are exactly those of R117. -/
def Obligations.SequencerTransitions : Prop :=
  ∀ (t : Nat) (x : PortIn) (b : Block t),
    (b.step x).st =
      if x.rst = true then .idle
      else match b.st with
        | .idle => if x.cmdValid = true then .run else .idle
        | .run =>
          if b.dly ≠ 0 ∨ b.ph.toNat ≠ lastPhase b.op then .run
          else if b.op = .send ∧ b.nak = true then .halt
          else .idle
        | .halt => .halt

/-- `NackHalt` is the only exception (R160, R162): HALT is entered only at the end of phase 26 of a SEND whose
acknowledgment sample was 1, and entering it changes `st` alone (R165). -/
def Obligations.OnlyUnacknowledgedSendHalts : Prop :=
  ∀ (t : Nat) (x : PortIn) (b : Block t), b.st ≠ .halt → (b.step x).st = .halt →
    x.rst = false ∧ b.st = .run ∧ b.op = .send ∧ b.ph = 26 ∧ b.dly = 0 ∧ b.nak = true ∧
    b.step x = { b with st := .halt }

/-- Outside IDLE the command ports have no effect (R83; `95_test_vectors.md` section 5, property 7). -/
def Obligations.BusyBlockIgnoresCommands : Prop :=
  ∀ (t : Nat) (x y : PortIn) (b : Block t), b.st ≠ .idle → x.rst = y.rst → x.sdaIn = y.sdaIn →
    b.step x = b.step y

/-- `sda_in` has an effect only in the last cycle of a sampling phase (R23, R112). -/
def Obligations.DataLineReadOnlyWhenSampling : Prop :=
  ∀ (t : Nat) (x : PortIn) (v : Bit) (b : Block t),
    ¬(b.st = .run ∧ b.dly = 0 ∧ samples b.op b.ph.toNat = true) →
    b.step { x with sdaIn := v } = b.step x

/-- Who writes each of the ten registers, reset apart (R21, R24 to R31): `op`, `txb` and `ackarg` at acceptance, `st`
and `ph` and `dly` at acceptance and by the running command, `rxb` and `nak` at their samples, and each line only at
the edge that begins a phase whose action (R110) is on that line. -/
def Obligations.RegisterWriters : Prop :=
  ∀ (t : Nat) (x : PortIn) (b : Block t), x.rst = false →
    ((b.step x).scl ≠ b.scl →
      (b.st = .idle ∧ x.cmdValid = true ∧ decodeOpcode x.cmdOp = .stop) ∨
      (b.st = .run ∧ b.dly = 0 ∧ b.ph.toNat ≠ lastPhase b.op ∧
        ∃ v : Bit, action b.op (b.ph + 1).toNat b.txb b.ackarg = some ⟨.scl, v⟩)) ∧
    ((b.step x).sda ≠ b.sda →
      (b.st = .idle ∧ x.cmdValid = true ∧ decodeOpcode x.cmdOp ≠ .stop) ∨
      (b.st = .run ∧ b.dly = 0 ∧ b.ph.toNat ≠ lastPhase b.op ∧
        ∃ v : Bit, action b.op (b.ph + 1).toNat b.txb b.ackarg = some ⟨.sda, v⟩)) ∧
    ((b.step x).st ≠ b.st →
      (b.st = .idle ∧ x.cmdValid = true) ∨ (b.st = .run ∧ b.dly = 0 ∧ b.ph.toNat = lastPhase b.op)) ∧
    ((b.step x).op ≠ b.op → b.st = .idle ∧ x.cmdValid = true) ∧
    ((b.step x).ph ≠ b.ph →
      (b.st = .idle ∧ x.cmdValid = true) ∨ (b.st = .run ∧ b.dly = 0 ∧ b.ph.toNat ≠ lastPhase b.op)) ∧
    ((b.step x).dly ≠ b.dly →
      (b.st = .idle ∧ x.cmdValid = true) ∨
      (b.st = .run ∧ (b.dly ≠ 0 ∨ b.ph.toNat ≠ lastPhase b.op))) ∧
    ((b.step x).txb ≠ b.txb → b.st = .idle ∧ x.cmdValid = true ∧ decodeOpcode x.cmdOp = .send) ∧
    ((b.step x).ackarg ≠ b.ackarg → b.st = .idle ∧ x.cmdValid = true ∧ decodeOpcode x.cmdOp = .read) ∧
    ((b.step x).rxb ≠ b.rxb → b.st = .run ∧ b.op = .read ∧ b.dly = 0 ∧
      b.ph.toNat ∈ [1, 3, 5, 7, 9, 11, 13, 15]) ∧
    ((b.step x).nak ≠ b.nak → b.st = .run ∧ b.op = .send ∧ b.dly = 0 ∧ b.ph = 25)

/-- A line changes only at the edge that begins a phase, or by reset (R21). -/
def Obligations.LinesChangeOnlyAtPhaseStart : Prop :=
  ∀ (t : Nat) (x : PortIn) (b : Block t), (b.step x).lines ≠ b.lines →
    x.rst = true ∨ (b.st = .idle ∧ x.cmdValid = true) ∨
    (b.st = .run ∧ b.dly = 0 ∧ b.ph.toNat ≠ lastPhase b.op)

/-! ## Invariants -/

/-- Every edge keeps the invariants of R41, for every input and every `T_SETTLE >= 1`. -/
def Obligations.EdgeKeepsInvariant : Prop :=
  ∀ (t : Nat) (x : PortIn) (b : Block t), 1 ≤ t → BlockInv b → BlockInv (b.step x)

/-- Every step of the machine keeps the invariants of R41. -/
def Obligations.StepKeepsInvariant : Prop :=
  ∀ s s' : State, s.Inv → step s = .next s' → s'.Inv

/-- The reset state meets the invariants of R41, for every parameter and every environment. -/
def Obligations.ResetMeetsInvariant : Prop :=
  State.reset.Inv ∧ ∀ (reload : Nat) (inputs : List Stimulus), (State.resetWith reload inputs).Inv

/-- The counters fit their registers (R7, R26, R114, R168): `W_DLY`, the width of `dly`, is the least width of at
least 1 that holds `T_SETTLE - 1`; the number loaded is not cut off; `dly` counts down without borrowing; and under
R41 the phase index counts without wrapping its five bits. -/
def Obligations.CountersFitTheirRegisters : Prop :=
  ∀ (t : Nat) (b : Block t), BlockInv b →
    (1 ≤ Config.wDly t ∧ t ≤ 2 ^ Config.wDly t ∧ ∀ w, 1 ≤ w → t ≤ 2 ^ w → Config.wDly t ≤ w) ∧
    (loadValue t).toNat = t - 1 ∧
    (b.dly ≠ 0 → (b.dly - 1).toNat = b.dly.toNat - 1) ∧
    (b.st = .run → b.ph.toNat ≠ lastPhase b.op →
      (b.ph + 1).toNat = b.ph.toNat + 1 ∧ (b.ph + 1).toNat ≤ 26)

/-! ## The step of the machine -/

/-- The step never faults and never refuses, and no command does (R100, R162). -/
def Obligations.StepNeverStops : Prop :=
  (∀ s : State, ∃ s' : State, step s = .next s') ∧
  (∀ (i : Instr) (s : State), ∃ s' : State, exec i s = .next s')

/-- A step runs the decoded command (R83, R102): when the host presents a command to a ready block and asserts no
reset, the step is `exec` of the decoded command on the state whose next input cycle is taken; otherwise it is
one clock edge. -/
def Obligations.StepRunsDecodedCommand : Prop :=
  ∀ (reload : Nat) (c : Circuit (reload + 1)),
    ((c.stimulusAt 0).rst = false → c.block.st = .idle → (c.stimulusAt 0).cmdValid = true →
      step ⟨reload, c⟩ = exec (decode (c.stimulusAt 0).cmdOp (c.stimulusAt 0).cmdArg)
        ⟨reload, { c with inputs := c.inputs.tail, cycle := c.cycle + 1 }⟩) ∧
    (¬((c.stimulusAt 0).rst = false ∧ c.block.st = .idle ∧ (c.stimulusAt 0).cmdValid = true) →
      step ⟨reload, c⟩ = .next ⟨reload, c.clockEdge⟩)

/-- A command presented to a block that is not ready is neither accepted nor remembered (R83). -/
def Obligations.BusyCommandTurnedAway : Prop :=
  ∀ (i : Instr) (reload : Nat) (c : Circuit (reload + 1)), c.block.st ≠ .idle →
    exec i ⟨reload, c⟩ = .next ⟨reload, c⟩

/-- Every step of the machine is some positive number of clock edges of R100, whatever the environment does; a
command accepted with no reset before it ends is its accepting edge and the cycles of R115. -/
def Obligations.StepIsClockEdges : Prop :=
  (∀ (reload : Nat) (c : Circuit (reload + 1)), ∃ n : Nat, 1 ≤ n ∧
    step ⟨reload, c⟩ = .next ⟨reload, c.clockEdges n⟩) ∧
  (∀ (reload : Nat) (c : Circuit (reload + 1)), c.block.st = .idle → (c.stimulusAt 0).cmdValid = true →
    c.noReset (1 + busyCycles (decodeOpcode (c.stimulusAt 0).cmdOp) (reload + 1)) →
    step ⟨reload, c⟩ =
      .next ⟨reload, c.clockEdges (1 + busyCycles (decodeOpcode (c.stimulusAt 0).cmdOp) (reload + 1))⟩)

/-- No step changes `T_SETTLE` (R42: it is a parameter); a step takes the environment's choices in order and only
extends the record of the bus (the model's own fields, log entries 1, 2, 4, 5). -/
def Obligations.StepKeepsParameter : Prop :=
  ∀ s s' : State, step s = .next s' →
    s'.reload = s.reload ∧
    (∃ n : Nat, 1 ≤ n ∧ s'.circuit.inputs = s.circuit.inputs.drop n ∧ s'.circuit.cycle = s.circuit.cycle + n ∧
      ∃ tail : List Lines, tail.length = n ∧ s'.circuit.bus = s.circuit.bus ++ tail)

/-! ## Whole commands -/

/-- START (R130): from any line pair it ends with lines `00` and IDLE after `2*T_SETTLE` cycles, having pulled the
data line low, then the clock line; it writes no other register. -/
def Obligations.StartCompletes : Prop :=
  ∀ (reload : Nat) (c : Circuit (reload + 1)), c.block.st = .idle → c.noReset (2 * (reload + 1)) →
    exec .start ⟨reload, c⟩ = .next
      ⟨reload, {
        block := { c.block with scl := false, sda := false, st := .idle, op := .start, ph := 1, dly := 0 }
        inputs := c.inputs.drop (2 * (reload + 1))
        cycle := c.cycle + 2 * (reload + 1)
        bus := c.bus ++ List.replicate (reload + 1) ⟨c.block.scl, false⟩ ++
          List.replicate (reload + 1) ⟨false, false⟩ ++ [⟨false, false⟩] }⟩

/-- STOP (R131): from any line pair it ends with lines `11` and IDLE after `2*T_SETTLE` cycles, having released the
clock line, then the data line; it writes no other register. -/
def Obligations.StopCompletes : Prop :=
  ∀ (reload : Nat) (c : Circuit (reload + 1)), c.block.st = .idle → c.noReset (2 * (reload + 1)) →
    exec .stop ⟨reload, c⟩ = .next
      ⟨reload, {
        block := { c.block with scl := true, sda := true, st := .idle, op := .stop, ph := 1, dly := 0 }
        inputs := c.inputs.drop (2 * (reload + 1))
        cycle := c.cycle + 2 * (reload + 1)
        bus := c.bus ++ List.replicate (reload + 1) ⟨true, c.block.sda⟩ ++
          List.replicate (reload + 1) ⟨true, true⟩ ++ [⟨true, true⟩] }⟩

/-- SEND, acknowledged (R140, R141): the peer's bit in the last cycle of phase 25 is 0; lines `01`, `nak = 0`,
`txb` the byte, IDLE after `27*T_SETTLE` cycles; it writes neither `rxb` nor `ackarg`. -/
def Obligations.SendAcknowledgedCompletes : Prop :=
  ∀ (byte : Byte) (reload : Nat) (c : Circuit (reload + 1)), c.block.st = .idle → c.noReset (27 * (reload + 1)) →
    c.peerAtPhaseEnd 25 = false →
    exec (.send byte) ⟨reload, c⟩ = .next
      ⟨reload, {
        block := { c.block with scl := false, sda := true, st := .idle, op := .send, ph := 26, dly := 0,
                                txb := byte, nak := false }
        inputs := c.inputs.drop (27 * (reload + 1))
        cycle := c.cycle + 27 * (reload + 1)
        bus := c.bus ++ wireTrace .send byte c.block.ackarg c.block.lines (reload + 1) ++ [⟨false, true⟩] }⟩

/-- SEND, not acknowledged (R140, R160, R165): the peer's bit in the last cycle of phase 25 is 1; all 27 phases are
carried out, then the block is in HALT with lines `01` and `nak = 1`; no other register is written. -/
def Obligations.SendUnacknowledgedHalts : Prop :=
  ∀ (byte : Byte) (reload : Nat) (c : Circuit (reload + 1)), c.block.st = .idle → c.noReset (27 * (reload + 1)) →
    c.peerAtPhaseEnd 25 = true →
    exec (.send byte) ⟨reload, c⟩ = .next
      ⟨reload, {
        block := { c.block with scl := false, sda := true, st := .halt, op := .send, ph := 26, dly := 0,
                                txb := byte, nak := true }
        inputs := c.inputs.drop (27 * (reload + 1))
        cycle := c.cycle + 27 * (reload + 1)
        bus := c.bus ++ wireTrace .send byte c.block.ackarg c.block.lines (reload + 1) ++ [⟨false, true⟩] }⟩

/-- READ (R150): bit `7-k` of the result is the peer's bit in the last cycle of phase `1+2k`; the data line ends
driven low exactly when it acknowledges; IDLE after `20*T_SETTLE` cycles; it writes neither `txb` nor `nak`. -/
def Obligations.ReadCompletes : Prop :=
  ∀ (ack : Bit) (reload : Nat) (c : Circuit (reload + 1)), c.block.st = .idle → c.noReset (20 * (reload + 1)) →
    ∃ byte : Byte, (∀ k < 8, byte.getLsbD (7 - k) = c.peerAtPhaseEnd (1 + 2 * k)) ∧
    exec (.read ack) ⟨reload, c⟩ = .next
      ⟨reload, {
        block := { c.block with scl := false, sda := !ack, st := .idle, op := .read, ph := 19, dly := 0,
                                ackarg := ack, rxb := byte }
        inputs := c.inputs.drop (20 * (reload + 1))
        cycle := c.cycle + 20 * (reload + 1)
        bus := c.bus ++ wireTrace .read c.block.txb ack c.block.lines (reload + 1) ++ [⟨false, !ack⟩] }⟩

/-- What a command leaves unchanged, for a block that is ready or not, when no reset comes before it ends (R130,
R131, R140, R150 "Writes"): START and STOP write no data register, SEND writes neither `ackarg` nor `rxb`, READ
writes neither `txb` nor `nak`, and none changes the parameter. The block has no memory (R60). -/
def Obligations.CommandFrame : Prop :=
  ∀ (i : Instr) (reload : Nat) (c : Circuit (reload + 1)) (s' : State),
    c.noReset (busyCycles i.opcode (reload + 1)) → exec i ⟨reload, c⟩ = .next s' →
    ∃ c' : Circuit (reload + 1), s' = ⟨reload, c'⟩ ∧
    (i = .start ∨ i = .stop → c'.block.txb = c.block.txb ∧ c'.block.ackarg = c.block.ackarg ∧
      c'.block.rxb = c.block.rxb ∧ c'.block.nak = c.block.nak) ∧
    (∀ byte : Byte, i = .send byte → c'.block.ackarg = c.block.ackarg ∧ c'.block.rxb = c.block.rxb) ∧
    (∀ ack : Bit, i = .read ack → c'.block.txb = c.block.txb ∧ c'.block.nak = c.block.nak)

/-- The two semantics agree (R116, R118): a whole command, run edge by edge at any `T_SETTLE`, ends with the lines,
`rxb`, `nak` and outcome of the untimed operation, and its line outputs are the operation's trace, each pair held
for `T_SETTLE` cycles. -/
def Obligations.ExecRefinesOperation : Prop :=
  ∀ (i : Instr) (reload : Nat) (c : Circuit (reload + 1)), c.block.st = .idle →
    c.noReset (busyCycles i.opcode (reload + 1)) →
    ∃ c' : Circuit (reload + 1), exec i ⟨reload, c⟩ = .next ⟨reload, c'⟩ ∧
      ∀ (outcome : OpOutcome) (r : OpRun),
        opExec i.opcode (c.block.latch i).txb (c.block.latch i).ackarg c.block.lines c.block.rxb
          c.block.nak (c.peerSample i.opcode) = (outcome, r) →
        c'.block.lines = r.lines ∧ c'.block.rxb = r.rxb ∧ c'.block.nak = r.nak ∧
        (c'.block.st = .idle ↔ outcome = .done) ∧ (c'.block.st = .halt ↔ outcome = .halt) ∧
        c'.bus = c.bus ++ r.trace.flatMap (List.replicate (reload + 1)) ++ [r.lines]

/-- The timetable of a command (R115): `n` cycles after acceptance the block is in phase `n / T_SETTLE` with its
lines held, `ready` and `halted` are 0 until the last cycle, and then one of them is 1. -/
def Obligations.CommandTimetable : Prop :=
  ∀ (t : Nat) (i : Instr) (c : Circuit t), 1 ≤ t → c.noReset (busyCycles i.opcode t) →
    (∀ n < busyCycles i.opcode t,
      ((c.acceptEdge i).clockEdges n).block.ready = false ∧
      ((c.acceptEdge i).clockEdges n).block.halted = false ∧
      ((c.acceptEdge i).clockEdges n).block.ph.toNat = n / t ∧
      ((c.acceptEdge i).clockEdges n).block.dly.toNat = t - 1 - n % t ∧
      ((c.acceptEdge i).clockEdges n).block.lines =
        linesThrough i.opcode (c.block.latch i).txb (c.block.latch i).ackarg c.block.lines
          (n / t)) ∧
    (((c.acceptEdge i).clockEdges (busyCycles i.opcode t)).block.ready = true ∨
      ((c.acceptEdge i).clockEdges (busyCycles i.opcode t)).block.halted = true)

/-- Reset while a command runs (R183): the command is abandoned at that edge, both lines are released at once, and
no partial result is kept. -/
def Obligations.ResetAbandonsCommand : Prop :=
  ∀ (i : Instr) (reload : Nat) (c : Circuit (reload + 1)) (n : Nat), c.block.st = .idle →
    n < busyCycles i.opcode (reload + 1) → c.noReset n → (c.stimulusAt n).rst = true →
    ∃ c' : Circuit (reload + 1), exec i ⟨reload, c⟩ = .next ⟨reload, c'⟩ ∧ c'.block = Block.reset ∧
      c'.inputs = c.inputs.drop (n + 1) ∧ c'.cycle = c.cycle + (n + 1) ∧ c'.bus.getLast? = some ⟨true, true⟩

/-- A peer that never drives the data line: every READ returns `0xFF` and completes, every SEND halts (R141, R151). -/
def Obligations.AbsentPeer : Prop :=
  ∀ (reload : Nat) (c : Circuit (reload + 1)), c.block.st = .idle → c.noReset (27 * (reload + 1)) →
    (∀ k < 27 * (reload + 1), (c.stimulusAt k).peerSda = true) →
    (∀ ack : Bit, ∃ c' : Circuit (reload + 1),
      exec (.read ack) ⟨reload, c⟩ = .next ⟨reload, c'⟩ ∧ c'.block.rxData = 0xFF ∧ c'.block.ready = true) ∧
    (∀ byte : Byte, ∃ c' : Circuit (reload + 1),
      exec (.send byte) ⟨reload, c⟩ = .next ⟨reload, c'⟩ ∧ c'.block.halted = true)

/-- A data line stuck low: every SEND completes as acknowledged and every READ returns `0x00` (R192). -/
def Obligations.StuckLowDataLine : Prop :=
  ∀ (reload : Nat) (c : Circuit (reload + 1)), c.block.st = .idle → c.noReset (27 * (reload + 1)) →
    (∀ k < 27 * (reload + 1), (c.stimulusAt k).peerSda = false) →
    (∀ ack : Bit, ∃ c' : Circuit (reload + 1),
      exec (.read ack) ⟨reload, c⟩ = .next ⟨reload, c'⟩ ∧ c'.block.rxData = 0x00 ∧ c'.block.ready = true) ∧
    (∀ byte : Byte, ∃ c' : Circuit (reload + 1),
      exec (.send byte) ⟨reload, c⟩ = .next ⟨reload, c'⟩ ∧ c'.block.ready = true ∧ c'.block.halted = false)

/-! ## The operation level -/

/-- The line pair each command ends with, from any pair and with any peer (R130, R131, R140, R150;
`95_test_vectors.md` section 5, property 2). -/
def Obligations.FinalLinePairs : Prop :=
  ∀ (peer : Nat → Bit) (r : OpRun),
    (opCommand .start peer r).2.lines = ⟨false, false⟩ ∧ (opCommand .stop peer r).2.lines = ⟨true, true⟩ ∧
    (∀ byte : Byte, (opCommand (.send byte) peer r).2.lines = ⟨false, true⟩) ∧
    (∀ ack : Bit, (opCommand (.read ack) peer r).2.lines = ⟨false, !ack⟩)

/-- The acknowledgment decides the outcome of a SEND and nothing on the wire (R141, R161, R165): it halts exactly
when its one sample is 1, and its trace does not depend on the peer. -/
def Obligations.AcknowledgmentDecidesOutcome : Prop :=
  ∀ (byte : Byte) (peer : Nat → Bit) (r : OpRun),
    ((opCommand (.send byte) peer r).1 = .halt ↔ peer r.drawn = true) ∧
    (opCommand (.send byte) peer r).2.drawn = r.drawn + 1 ∧
    (opCommand (.send byte) peer r).2.rxb = r.rxb ∧
    (∀ peer' : Nat → Bit,
      (opCommand (.send byte) peer' r).2.trace = (opCommand (.send byte) peer r).2.trace)

/-- A READ assembles its eight samples most significant first, whatever `rxb` held before, and completes (R62,
R114, R150). -/
def Obligations.ReadAssemblesMsbFirst : Prop :=
  ∀ (ack : Bit) (peer : Nat → Bit) (r : OpRun),
    (opCommand (.read ack) peer r).1 = .done ∧ (opCommand (.read ack) peer r).2.drawn = r.drawn + 8 ∧
    (opCommand (.read ack) peer r).2.nak = r.nak ∧
    (∀ k < 8, (opCommand (.read ack) peer r).2.rxb.getLsbD (7 - k) = peer (r.drawn + k))

/-- Eight shifts push out every old bit and leave the sum of `s_j * 2^(7-j)` (R114). -/
def Obligations.EightShiftsReplaceTheByte : Prop :=
  ∀ (old : Byte) (s0 s1 s2 s3 s4 s5 s6 s7 : Bit),
    ([s0, s1, s2, s3, s4, s5, s6, s7].foldl shiftIn old).toNat =
      s0.toNat * 128 + s1.toNat * 64 + s2.toNat * 32 + s3.toNat * 16 + s4.toNat * 8 + s5.toNat * 4 +
        s6.toNat * 2 + s7.toNat

/-- On the wire a SEND from a pair with the clock low carries bit `7-k` during clock pulse `k`, and the data line
changes only while the clock is low (R62, R140; `95_test_vectors.md` section 5, property 5). -/
def Obligations.SendDataStableWhileClockHigh : Prop :=
  ∀ (byte : Byte) (ackarg : Bit) (p : Lines), p.scl = false →
    everyEdge dataStable p ((List.range 27).map (linesThrough .send byte ackarg p)) ∧
    (∀ k < 8, linesThrough .send byte ackarg p (3 * k + 1) = ⟨true, byte.getLsbD (7 - k)⟩) ∧
    linesThrough .send byte ackarg p 25 = ⟨true, true⟩

/-- When the block itself makes the bus events (R186, R187): START makes the falling data edge exactly from the
idle pair `11`, STOP makes the rising data edge exactly when the data line is driven low before it. -/
def Obligations.FramingEventsOnTheWire : Prop :=
  ∀ (txb : Byte) (ackarg : Bit) (p : Lines),
    (everyEdge (fun a b => ¬startCondition a b) p
        [linesThrough .start txb ackarg p 0, linesThrough .start txb ackarg p 1] ↔
      p ≠ ⟨true, true⟩) ∧
    (everyEdge (fun a b => ¬stopCondition a b) p
        [linesThrough .stop txb ackarg p 0, linesThrough .stop txb ackarg p 1] ↔
      p.sda = true)

/-- A run stops at the first unacknowledged SEND: the commands after it are never executed (R116, R197). -/
def Obligations.UnacknowledgedSendEndsRun : Prop :=
  ∀ (peer : Nat → Bit) (before after : Program) (byte : Byte) (r r' : OpRun),
    opProgram peer before r = (.done, r') → peer r'.drawn = true →
    opProgram peer (before ++ .send byte :: after) r =
      (.halt, (opCommand (.send byte) peer r').2)
end

