-- ==== Sys2Proof/Laws/State.lean ====
section
/-! SUPPORT. One lemma per field per update of the block and of the machine, true by unfolding the update once,
so that no later proof unfolds a record update. -/

namespace Sys2Proof.Machine

variable {tSettle : Nat}

section Drive
variable (l : Line) (v : Bit) (a : Option LineAction) (b : Block tSettle) (p : Lines)

@[simp] theorem Block.drive_st : (b.drive l v).st = b.st := by cases l <;> rfl
@[simp] theorem Block.drive_op : (b.drive l v).op = b.op := by cases l <;> rfl
@[simp] theorem Block.drive_ph : (b.drive l v).ph = b.ph := by cases l <;> rfl
@[simp] theorem Block.drive_dly : (b.drive l v).dly = b.dly := by cases l <;> rfl
@[simp] theorem Block.drive_txb : (b.drive l v).txb = b.txb := by cases l <;> rfl
@[simp] theorem Block.drive_ackarg : (b.drive l v).ackarg = b.ackarg := by cases l <;> rfl
@[simp] theorem Block.drive_rxb : (b.drive l v).rxb = b.rxb := by cases l <;> rfl
@[simp] theorem Block.drive_nak : (b.drive l v).nak = b.nak := by cases l <;> rfl
@[simp] theorem Block.drive_lines : (b.drive l v).lines = b.lines.drive l v := by cases l <;> rfl

@[simp] theorem Block.act_st : (b.act a).st = b.st := by cases a <;> simp [Block.act]
@[simp] theorem Block.act_op : (b.act a).op = b.op := by cases a <;> simp [Block.act]
@[simp] theorem Block.act_ph : (b.act a).ph = b.ph := by cases a <;> simp [Block.act]
@[simp] theorem Block.act_dly : (b.act a).dly = b.dly := by cases a <;> simp [Block.act]
@[simp] theorem Block.act_txb : (b.act a).txb = b.txb := by cases a <;> simp [Block.act]
@[simp] theorem Block.act_ackarg : (b.act a).ackarg = b.ackarg := by cases a <;> simp [Block.act]
@[simp] theorem Block.act_rxb : (b.act a).rxb = b.rxb := by cases a <;> simp [Block.act]
@[simp] theorem Block.act_nak : (b.act a).nak = b.nak := by cases a <;> simp [Block.act]
@[simp] theorem Block.act_lines : (b.act a).lines = b.lines.act a := by
  cases a <;> simp [Block.act, Lines.act]

end Drive

section Latch
variable (i : Instr) (b : Block tSettle)

@[simp] theorem Block.latch_scl : (b.latch i).scl = b.scl := by cases i <;> rfl
@[simp] theorem Block.latch_sda : (b.latch i).sda = b.sda := by cases i <;> rfl
@[simp] theorem Block.latch_rxb : (b.latch i).rxb = b.rxb := by cases i <;> rfl
@[simp] theorem Block.latch_nak : (b.latch i).nak = b.nak := by cases i <;> rfl
@[simp] theorem Block.latch_start : b.latch .start = b := rfl
@[simp] theorem Block.latch_stop : b.latch .stop = b := rfl
@[simp] theorem Block.latch_send_txb (x : Byte) : (b.latch (.send x)).txb = x := rfl
@[simp] theorem Block.latch_send_ackarg (x : Byte) : (b.latch (.send x)).ackarg = b.ackarg := rfl
@[simp] theorem Block.latch_read_txb (x : Bit) : (b.latch (.read x)).txb = b.txb := rfl
@[simp] theorem Block.latch_read_ackarg (x : Bit) : (b.latch (.read x)).ackarg = x := rfl

end Latch

section Phase
variable (n : BitVec 5) (b : Block tSettle)

@[simp] theorem Block.beginPhase_st : (b.beginPhase n).st = b.st := by simp [Block.beginPhase]
@[simp] theorem Block.beginPhase_op : (b.beginPhase n).op = b.op := by simp [Block.beginPhase]
@[simp] theorem Block.beginPhase_ph : (b.beginPhase n).ph = n := by simp [Block.beginPhase]
@[simp] theorem Block.beginPhase_dly : (b.beginPhase n).dly = loadValue tSettle := by simp [Block.beginPhase]
@[simp] theorem Block.beginPhase_txb : (b.beginPhase n).txb = b.txb := by simp [Block.beginPhase]
@[simp] theorem Block.beginPhase_ackarg : (b.beginPhase n).ackarg = b.ackarg := by
  simp [Block.beginPhase]
@[simp] theorem Block.beginPhase_rxb : (b.beginPhase n).rxb = b.rxb := by simp [Block.beginPhase]
@[simp] theorem Block.beginPhase_nak : (b.beginPhase n).nak = b.nak := by simp [Block.beginPhase]
@[simp] theorem Block.beginPhase_lines :
    (b.beginPhase n).lines = b.lines.act (action b.op n.toNat b.txb b.ackarg) := by
  rw [Block.beginPhase, Block.act_lines]; rfl

end Phase

section Capture
variable (v : Bit) (b : Block tSettle)

@[simp] theorem Block.captureNak_nak : (b.captureNak v).nak = v := rfl
@[simp] theorem Block.captureNak_rxb : (b.captureNak v).rxb = b.rxb := rfl
@[simp] theorem Block.captureBit_rxb : (b.captureBit v).rxb = shiftIn b.rxb v := rfl
@[simp] theorem Block.captureBit_nak : (b.captureBit v).nak = b.nak := rfl

end Capture

section Sample
variable (x : PortIn) (b : Block tSettle)

@[simp] theorem Block.takeSample_scl : (b.takeSample x).scl = b.scl := by
  unfold Block.takeSample; split <;> [split <;> rfl; rfl]
@[simp] theorem Block.takeSample_sda : (b.takeSample x).sda = b.sda := by
  unfold Block.takeSample; split <;> [split <;> rfl; rfl]
@[simp] theorem Block.takeSample_st : (b.takeSample x).st = b.st := by
  unfold Block.takeSample; split <;> [split <;> rfl; rfl]
@[simp] theorem Block.takeSample_op : (b.takeSample x).op = b.op := by
  unfold Block.takeSample; split <;> [split <;> rfl; rfl]
@[simp] theorem Block.takeSample_ph : (b.takeSample x).ph = b.ph := by
  unfold Block.takeSample; split <;> [split <;> rfl; rfl]
@[simp] theorem Block.takeSample_dly : (b.takeSample x).dly = b.dly := by
  unfold Block.takeSample; split <;> [split <;> rfl; rfl]
@[simp] theorem Block.takeSample_txb : (b.takeSample x).txb = b.txb := by
  unfold Block.takeSample; split <;> [split <;> rfl; rfl]
@[simp] theorem Block.takeSample_ackarg : (b.takeSample x).ackarg = b.ackarg := by
  unfold Block.takeSample; split <;> [split <;> rfl; rfl]
@[simp] theorem Block.takeSample_lines : (b.takeSample x).lines = b.lines := by simp [Block.lines]

end Sample

section Accept
variable (i : Instr) (b : Block tSettle)

@[simp] theorem Block.accept_st : (b.accept i).st = .run := by simp [Block.accept]
@[simp] theorem Block.accept_op : (b.accept i).op = i.opcode := by simp [Block.accept]
@[simp] theorem Block.accept_ph : (b.accept i).ph = 0 := by simp [Block.accept]
@[simp] theorem Block.accept_dly : (b.accept i).dly = loadValue tSettle := by simp [Block.accept]
@[simp] theorem Block.accept_txb : (b.accept i).txb = (b.latch i).txb := by simp [Block.accept]
@[simp] theorem Block.accept_ackarg : (b.accept i).ackarg = (b.latch i).ackarg := by
  simp [Block.accept]
@[simp] theorem Block.accept_rxb : (b.accept i).rxb = b.rxb := by simp [Block.accept]
@[simp] theorem Block.accept_nak : (b.accept i).nak = b.nak := by simp [Block.accept]
@[simp] theorem Block.accept_lines :
    (b.accept i).lines = b.lines.act (action i.opcode 0 (b.latch i).txb (b.latch i).ackarg) := by
  rw [Block.accept, Block.beginPhase_lines]; simp [Block.lines]

end Accept

section Ending
variable (b : Block tSettle)

@[simp] theorem Block.raiseNackHalt_st : b.raiseNackHalt.st = .halt := rfl
@[simp] theorem Block.raiseNackHalt_lines : b.raiseNackHalt.lines = b.lines := rfl
@[simp] theorem Block.complete_st : b.complete.st = .idle := rfl
@[simp] theorem Block.complete_lines : b.complete.lines = b.lines := rfl
@[simp] theorem Block.applyReset_eq : b.applyReset = Block.reset := rfl

end Ending

section Machine
variable (b : Block tSettle) (c : Circuit tSettle) (k : Nat)

@[simp] theorem Circuit.consume_block : c.consume.block = c.block := rfl
@[simp] theorem Circuit.consume_inputs : c.consume.inputs = c.inputs.tail := rfl
@[simp] theorem Circuit.consume_cycle : c.consume.cycle = c.cycle + 1 := rfl
@[simp] theorem Circuit.consume_bus : c.consume.bus = c.bus := rfl
@[simp] theorem Circuit.commit_block : (c.commit b).block = b := rfl
@[simp] theorem Circuit.commit_inputs : (c.commit b).inputs = c.inputs := rfl
@[simp] theorem Circuit.commit_cycle : (c.commit b).cycle = c.cycle := rfl
@[simp] theorem Circuit.commit_bus : (c.commit b).bus = c.bus ++ [b.lines] := rfl

@[simp] theorem Circuit.clockEdge_block :
    c.clockEdge.block = c.block.step ((c.stimulusAt 0).ports c.block.sda) := rfl
@[simp] theorem Circuit.clockEdge_inputs : c.clockEdge.inputs = c.inputs.tail := rfl
@[simp] theorem Circuit.clockEdge_cycle : c.clockEdge.cycle = c.cycle + 1 := rfl
@[simp] theorem Circuit.clockEdge_bus : c.clockEdge.bus = c.bus ++ [c.clockEdge.block.lines] := rfl

@[simp] theorem Circuit.acceptEdge_block (i : Instr) :
    (c.acceptEdge i).block = c.block.accept i := rfl
@[simp] theorem Circuit.acceptEdge_inputs (i : Instr) : (c.acceptEdge i).inputs = c.inputs := rfl
@[simp] theorem Circuit.acceptEdge_cycle (i : Instr) : (c.acceptEdge i).cycle = c.cycle := rfl
@[simp] theorem Circuit.acceptEdge_bus (i : Instr) :
    (c.acceptEdge i).bus = c.bus ++ [(c.block.accept i).lines] := rfl

@[simp] theorem Circuit.consume_stimulusAt : c.consume.stimulusAt k = c.stimulusAt (k + 1) := by
  simp [Circuit.stimulusAt, Circuit.consume, Nat.add_assoc, Nat.add_comm 1 k]

@[simp] theorem Circuit.commit_stimulusAt : (c.commit b).stimulusAt k = c.stimulusAt k := rfl

@[simp] theorem Circuit.clockEdge_stimulusAt : c.clockEdge.stimulusAt k = c.stimulusAt (k + 1) := by
  simp [Circuit.clockEdge]

@[simp] theorem Circuit.acceptEdge_stimulusAt (i : Instr) :
    (c.acceptEdge i).stimulusAt k = c.stimulusAt k := rfl

end Machine

section Put
variable (s : State) (c d : Circuit (s.reload + 1)) (i : Instr)

@[simp] theorem State.put_reload : (s.put c).reload = s.reload := rfl
@[simp] theorem State.put_circuit : (s.put c).circuit = c := rfl
@[simp] theorem State.put_put : (s.put c).put d = s.put d := rfl
@[simp] theorem State.put_self : s.put s.circuit = s := rfl
@[simp] theorem State.put_perform : (s.put c).perform i = s.put (c.perform i) := rfl

end Put

end Sys2Proof.Machine
end

