-- ==== Sys2Proof/Laws/Sequencer.lean ====
section
/-! SUPPORT. What the shared operations of the sequencer can do, each said once. -/

namespace Sys2Proof.Machine

variable {tSettle : Nat}

/-- Every edge of the block, by the rule that governs it (R100). -/
theorem Block.step_cases (x : PortIn) (b : Block tSettle) :
    (x.rst = true ∧ b.step x = Block.reset) ∨
    (x.rst = false ∧ b.st = .idle ∧ x.cmdValid = true ∧
      b.step x = b.accept (decode x.cmdOp x.cmdArg)) ∨
    (x.rst = false ∧ b.st = .idle ∧ x.cmdValid = false ∧ b.step x = b) ∨
    (x.rst = false ∧ b.st = .run ∧ b.dly ≠ 0 ∧ b.step x = { b with dly := b.dly - 1 }) ∨
    (x.rst = false ∧ b.st = .run ∧ b.dly = 0 ∧ b.ph.toNat ≠ lastPhase b.op ∧
      b.step x = (b.takeSample x).beginPhase (b.ph + 1)) ∨
    (x.rst = false ∧ b.st = .run ∧ b.dly = 0 ∧ b.ph.toNat = lastPhase b.op ∧
      b.step x = b.endCommand) ∨
    (x.rst = false ∧ b.st = .halt ∧ b.step x = b) := by
  cases hr : x.rst
  case true => simp [Block.step, hr]
  case false =>
    cases hs : b.st
    case idle => cases hv : x.cmdValid <;> simp [Block.step, Block.idleEdge, hr, hs, hv]
    case halt => simp [Block.step, hr, hs]
    case run =>
      by_cases hd : b.dly = 0
      · by_cases hp : b.ph.toNat = lastPhase b.op <;>
          simp [Block.step, Block.runEdge, hr, hs, hd, hp]
      · simp [Block.step, Block.runEdge, hr, hs, show ¬b.dly = 0#_ from hd]

theorem Block.step_of_rst {x : PortIn} {b : Block tSettle} (h : x.rst = true) :
    b.step x = Block.reset := by simp [Block.step, h]

theorem Block.step_of_halt {x : PortIn} {b : Block tSettle} (hr : x.rst = false)
    (hs : b.st = .halt) : b.step x = b := by simp [Block.step, hr, hs]

theorem Block.step_of_waiting {x : PortIn} {b : Block tSettle} (hr : x.rst = false)
    (hs : b.st = .run) (hd : b.dly ≠ 0) : b.step x = { b with dly := b.dly - 1 } := by
  simp [Block.step, Block.runEdge, hr, hs, show ¬b.dly = 0#_ from hd]

theorem Block.step_of_phaseEnd {x : PortIn} {b : Block tSettle} (hr : x.rst = false)
    (hs : b.st = .run) (hd : b.dly = 0) (hp : b.ph.toNat ≠ lastPhase b.op) :
    b.step x = (b.takeSample x).beginPhase (b.ph + 1) := by
  simp [Block.step, Block.runEdge, hr, hs, hd, hp]

theorem Block.step_of_lastEnd {x : PortIn} {b : Block tSettle} (hr : x.rst = false)
    (hs : b.st = .run) (hd : b.dly = 0) (hp : b.ph.toNat = lastPhase b.op) :
    b.step x = b.endCommand := by
  simp [Block.step, Block.runEdge, hr, hs, hd, hp]

/-- How a command's last edge ends it (R107). -/
theorem Block.endCommand_cases (b : Block tSettle) :
    (b.op = .send ∧ b.nak = true ∧ b.endCommand = { b with st := .halt }) ∨
    (¬(b.op = .send ∧ b.nak = true) ∧ b.endCommand = { b with st := .idle }) := by
  by_cases h : b.op = .send ∧ b.nak = true
  · exact .inl ⟨h.1, h.2, by simp [Block.endCommand, h, Block.raiseNackHalt]⟩
  · exact .inr ⟨h, by simp [Block.endCommand, h, Block.complete]⟩

@[simp] theorem Block.endCommand_op (b : Block tSettle) : b.endCommand.op = b.op := by
  rcases b.endCommand_cases with ⟨_, _, h⟩ | ⟨_, h⟩ <;> rw [h]
@[simp] theorem Block.endCommand_ph (b : Block tSettle) : b.endCommand.ph = b.ph := by
  rcases b.endCommand_cases with ⟨_, _, h⟩ | ⟨_, h⟩ <;> rw [h]
@[simp] theorem Block.endCommand_dly (b : Block tSettle) : b.endCommand.dly = b.dly := by
  rcases b.endCommand_cases with ⟨_, _, h⟩ | ⟨_, h⟩ <;> rw [h]
@[simp] theorem Block.endCommand_txb (b : Block tSettle) : b.endCommand.txb = b.txb := by
  rcases b.endCommand_cases with ⟨_, _, h⟩ | ⟨_, h⟩ <;> rw [h]
@[simp] theorem Block.endCommand_ackarg (b : Block tSettle) : b.endCommand.ackarg = b.ackarg := by
  rcases b.endCommand_cases with ⟨_, _, h⟩ | ⟨_, h⟩ <;> rw [h]
@[simp] theorem Block.endCommand_rxb (b : Block tSettle) : b.endCommand.rxb = b.rxb := by
  rcases b.endCommand_cases with ⟨_, _, h⟩ | ⟨_, h⟩ <;> rw [h]
@[simp] theorem Block.endCommand_nak (b : Block tSettle) : b.endCommand.nak = b.nak := by
  rcases b.endCommand_cases with ⟨_, _, h⟩ | ⟨_, h⟩ <;> rw [h]
theorem Block.endCommand_st (b : Block tSettle) :
    b.endCommand.st = if b.op = .send ∧ b.nak = true then .halt else .idle := by
  unfold Block.endCommand; split <;> rfl

@[simp] theorem Block.endCommand_lines (b : Block tSettle) : b.endCommand.lines = b.lines := by
  rcases b.endCommand_cases with ⟨_, _, h⟩ | ⟨_, h⟩ <;> rw [h] <;> rfl

/-- Two blocks with the same line pair and the same other registers are equal. -/
theorem Block.ext_lines {a b : Block tSettle} (hl : a.lines = b.lines) (hst : a.st = b.st) (hop : a.op = b.op)
    (hph : a.ph = b.ph) (hdly : a.dly = b.dly) (htxb : a.txb = b.txb) (hack : a.ackarg = b.ackarg)
    (hrxb : a.rxb = b.rxb) (hnak : a.nak = b.nak) : a = b := by
  cases a; cases b; simp_all [Block.lines]

theorem Lines.eq_sda {b : Block tSettle} {c d : Bit} (h : b.lines = ⟨c, d⟩) : b.sda = d := congrArg Lines.sda h

theorem Lines.eq_scl {b : Block tSettle} {c d : Bit} (h : b.lines = ⟨c, d⟩) : b.scl = c := congrArg Lines.scl h

/-- `nak` changes only at the sample of a SEND (R31). -/
theorem Block.takeSample_nak (x : PortIn) (b : Block tSettle) :
    (b.takeSample x).nak =
      if b.op = .send ∧ samples b.op b.ph.toNat = true then sample x else b.nak := by
  unfold Block.takeSample
  split
  case isTrue h => cases ho : b.op <;> simp_all
  case isFalse h => simp [h]

/-- `rxb` changes only at the samples of a READ (R30). -/
theorem Block.takeSample_rxb (x : PortIn) (b : Block tSettle) :
    (b.takeSample x).rxb =
      if b.op = .read ∧ samples b.op b.ph.toNat = true then shiftIn b.rxb (sample x) else b.rxb := by
  unfold Block.takeSample
  split
  case isTrue h => cases ho : b.op <;> simp_all
  case isFalse h => simp [h]

/-- `T_SETTLE` is at most `2^W_DLY` (R7). -/
theorem le_two_pow_wDly (t : Nat) : t ≤ 2 ^ Config.wDly t := by
  rcases Nat.eq_zero_or_pos t with rfl | h
  · exact Nat.zero_le _
  · exact (Nat.le_pow_clog (by omega) t).trans (Nat.pow_le_pow_right (by omega) (Nat.le_max_right 1 _))

/-- `T_SETTLE - 1` fits the delay counter (R27, R168). -/
@[simp] theorem loadValue_toNat (t : Nat) : (loadValue t).toNat = t - 1 := by
  have := le_two_pow_wDly t
  have := Nat.two_pow_pos (Config.wDly t)
  rw [loadValue, BitVec.toNat_ofNat]
  exact Nat.mod_eq_of_lt (by omega)

/-- A counter that is not 0 counts down without borrowing (R114). -/
theorem toNat_sub_one {w : Nat} {x : BitVec w} (h : x ≠ 0) : (x - 1).toNat = x.toNat - 1 := by
  have h0 : 0 < x.toNat := Nat.pos_of_ne_zero fun h' => h (BitVec.eq_of_toNat_eq (by simpa using h'))
  have h1 : (1 : BitVec w).toNat ≤ x.toNat := by
    have := Nat.mod_le 1 (2 ^ w)
    rw [show (1 : BitVec w).toNat = 1 % 2 ^ w from BitVec.toNat_ofNat ..]; omega
  have h2 : (1 : BitVec w).toNat = 1 := by
    rw [show (1 : BitVec w).toNat = 1 % 2 ^ w from BitVec.toNat_ofNat ..]
    exact Nat.mod_eq_of_lt (by have := x.isLt; omega)
  rw [BitVec.toNat_sub_of_le (BitVec.le_def.mpr h1), h2]

/-- The delay left when a phase ends has no part in the next phase. -/
theorem Block.beginPhase_takeSample_dly (d : BitVec (Config.wDly tSettle)) (n : BitVec 5) (x : PortIn) (b : Block tSettle) :
    (({ b with dly := d } : Block tSettle).takeSample x).beginPhase n = (b.takeSample x).beginPhase n := by
  rcases b with ⟨scl, sda, st, op, ph, dly, txb, ackarg, rxb, nak⟩
  cases h : samples op ph.toNat
  · simp [Block.takeSample, Block.beginPhase, h]
  · cases op <;> simp [Block.takeSample, Block.beginPhase, Block.captureNak, Block.captureBit, h]

/-- No command samples in its last phase (R105). -/
theorem samples_lastPhase (op : Opcode) : samples op (lastPhase op) = false := by
  cases op <;> rfl

theorem lastPhase_le (op : Opcode) : lastPhase op ≤ 26 := by cases op <;> decide

/-- Within a command the phase index counts without wrapping (R114). -/
theorem ph_succ_toNat {b : Block tSettle} (h : b.ph.toNat < lastPhase b.op) :
    (b.ph + 1).toNat = b.ph.toNat + 1 := by
  have := lastPhase_le b.op
  rw [BitVec.toNat_add]
  exact Nat.mod_eq_of_lt (by simp; omega)

end Sys2Proof.Machine
end

