-- ==== Sys2Proof/Laws/Environment.lean ====
section
/-! SUPPORT. How runs of clock edges compose: a window of edges without reset, a whole settle delay, and the
step of the machine by its two cases. -/

namespace Sys2Proof.Machine

variable {tSettle : Nat}

theorem Circuit.noReset_clockEdge {c : Circuit tSettle} {n : Nat} (h : c.noReset (n + 1)) :
    c.clockEdge.noReset n := fun k hk => by
  simpa using h (k + 1) (Nat.succ_lt_succ hk)

theorem Circuit.noReset_head {c : Circuit tSettle} {n : Nat} (h : c.noReset (n + 1)) :
    (c.stimulusAt 0).rst = false := h 0 (Nat.succ_pos n)

theorem Circuit.noReset_mono {c : Circuit tSettle} {m n : Nat} (h : c.noReset n) (hm : m ≤ n) : c.noReset m :=
  fun k hk => h k (Nat.lt_of_lt_of_le hk hm)

theorem Circuit.clockEdges_add (m n : Nat) (c : Circuit tSettle) :
    c.clockEdges (m + n) = (c.clockEdges m).clockEdges n := by
  induction m generalizing c with
  | zero => simp [Circuit.clockEdges]
  | succ m ih => rw [Nat.succ_add]; exact ih c.clockEdge

theorem Circuit.clockEdges_stimulusAt (n k : Nat) (c : Circuit tSettle) :
    (c.clockEdges n).stimulusAt k = c.stimulusAt (n + k) := by
  induction n generalizing c with
  | zero => simp [Circuit.clockEdges]
  | succ n ih => simp [Circuit.clockEdges, ih]; congr 1; omega

theorem Circuit.clockEdges_inputs (n : Nat) (c : Circuit tSettle) :
    (c.clockEdges n).inputs = c.inputs.drop n := by
  induction n generalizing c with
  | zero => rfl
  | succ n ih => simp [Circuit.clockEdges, ih]

theorem Circuit.clockEdges_cycle (n : Nat) (c : Circuit tSettle) : (c.clockEdges n).cycle = c.cycle + n := by
  induction n generalizing c with
  | zero => rfl
  | succ n ih => simp [Circuit.clockEdges, ih]; omega

/-- A running command whose delay outlasts the edges taken only counts down, and holds its lines (R104, R119). -/
theorem Circuit.clockEdges_waiting {n : Nat} {c : Circuit tSettle} (hs : c.block.st = .run)
    (hd : n ≤ c.block.dly.toNat) (hr : c.noReset n) :
    c.clockEdges n =
      { c with block := { c.block with dly := c.block.dly - BitVec.ofNat _ n }, inputs := c.inputs.drop n,
               cycle := c.cycle + n, bus := c.bus ++ List.replicate n c.block.lines } := by
  induction n generalizing c with
  | zero => simp [Circuit.clockEdges]
  | succ n ih =>
    have hne : c.block.dly ≠ 0 := fun h => by simp [h] at hd
    have hstep : c.clockEdge.block = { c.block with dly := c.block.dly - 1 } :=
      Block.step_of_waiting (Circuit.noReset_head hr) hs hne
    have hlines : c.clockEdge.block.lines = c.block.lines := by rw [hstep]; rfl
    rw [Circuit.clockEdges, ih (by rw [hstep]; exact hs) (by rw [hstep, toNat_sub_one hne]; omega)
      (Circuit.noReset_clockEdge hr), Circuit.clockEdge_bus, hlines, hstep]
    simp [List.replicate_succ, BitVec.ofNat_add, sub_sub, add_comm, add_left_comm]

/-- `runBusy` is plain clock edges as long as the block stays in RUN. -/
theorem Circuit.runBusy_eq_clockEdges {n : Nat} {c : Circuit tSettle}
    (h : ∀ k < n, (c.clockEdges k).block.st = .run) : c.runBusy n = c.clockEdges n := by
  induction n generalizing c with
  | zero => rfl
  | succ n ih =>
    have h0 : c.block.st = .run := h 0 (Nat.succ_pos n)
    rw [Circuit.runBusy, if_pos h0, Circuit.clockEdges]
    exact ih fun k hk => h (k + 1) (Nat.succ_lt_succ hk)

/-- Out of RUN, `runBusy` does nothing. -/
theorem Circuit.runBusy_of_not_run {n : Nat} {c : Circuit tSettle} (h : c.block.st ≠ .run) : c.runBusy n = c := by
  cases n <;> simp [Circuit.runBusy, h]

/-- Whatever clock edges keep, `runBusy` keeps. -/
theorem Circuit.runBusy_induction {P : Circuit tSettle → Prop} (hstep : ∀ c, P c → P c.clockEdge) (n : Nat)
    {c : Circuit tSettle} (h : P c) : P (c.runBusy n) := by
  induction n generalizing c with
  | zero => exact h
  | succ n ih =>
    rw [Circuit.runBusy]
    split
    · exact ih (hstep c h)
    · exact h

/-- What `fetch` answers: the command accepted at the next edge, if the block accepts one (R83). -/
theorem Circuit.fetch_cases (c : Circuit tSettle) :
    (c.fetch = some (decode (c.stimulusAt 0).cmdOp (c.stimulusAt 0).cmdArg, c.consume) ∧
      (c.stimulusAt 0).rst = false ∧ c.block.st = .idle ∧ (c.stimulusAt 0).cmdValid = true) ∨
    (c.fetch = none ∧
      ¬((c.stimulusAt 0).rst = false ∧ c.block.st = .idle ∧ (c.stimulusAt 0).cmdValid = true)) := by
  unfold Circuit.fetch Block.ready
  by_cases h : (c.stimulusAt 0).rst = false ∧ c.block.st = .idle ∧ (c.stimulusAt 0).cmdValid = true
  · simp [h]
  · right; simpa using h

/-- A command the block is ready for: the accepting edge, then its cycles (R102, R115). -/
theorem Circuit.perform_of_ready {i : Instr} {c : Circuit tSettle} (h : c.block.st = .idle) :
    c.perform i = (c.acceptEdge i).runBusy (busyCycles i.opcode tSettle) := by
  simp [Circuit.perform, Block.ready, h]

/-- A command presented while `ready = 0` is ignored (R83). -/
theorem Circuit.perform_of_not_ready {i : Instr} {c : Circuit tSettle} (h : c.block.st ≠ .idle) :
    c.perform i = c := by
  simp [Circuit.perform, Block.ready, h]

/-- Every meaning is the shared operation `perform` on the machine's circuit, and answers a next state. -/
theorem exec_eq (i : Instr) (reload : Nat) (c : Circuit (reload + 1)) :
    exec i ⟨reload, c⟩ = .next ⟨reload, c.perform i⟩ := by cases i <;> rfl

/-- Every step: a whole command, or one clock edge. -/
theorem step_cases (reload : Nat) (c : Circuit (reload + 1)) :
    ((c.stimulusAt 0).rst = false ∧ c.block.st = .idle ∧ (c.stimulusAt 0).cmdValid = true ∧
      step ⟨reload, c⟩ =
        .next ⟨reload, c.consume.perform (decode (c.stimulusAt 0).cmdOp (c.stimulusAt 0).cmdArg)⟩) ∨
    (¬((c.stimulusAt 0).rst = false ∧ c.block.st = .idle ∧ (c.stimulusAt 0).cmdValid = true) ∧
      step ⟨reload, c⟩ = .next ⟨reload, c.clockEdge⟩) := by
  rcases c.fetch_cases with ⟨hf, h1, h2, h3⟩ | ⟨hf, h⟩
  · exact .inl ⟨h1, h2, h3, by rw [step, hf]; exact exec_eq ..⟩
  · exact .inr ⟨h, by rw [step, hf]; rfl⟩

end Sys2Proof.Machine
end

