-- ==== Sys2Proof/Laws/Operation.lean ====
section
/-! SUPPORT. The operation level: what a phase does to the lines and the trace, and the lines of each phase. -/

namespace Sys2Proof.Machine

section Phase
variable (op : Opcode) (txb : Byte) (ackarg : Bit) (peer : Nat → Bit) (r : OpRun) (n : Nat)

@[simp] theorem OpRun.record_lines (v : Bit) : (r.record op v).lines = r.lines := by cases op <;> rfl
@[simp] theorem OpRun.record_trace (v : Bit) : (r.record op v).trace = r.trace := by cases op <;> rfl

@[simp] theorem opPhase_lines :
    (opPhase op txb ackarg peer r n).lines = r.lines.act (action op n txb ackarg) := by
  unfold opPhase; split <;> simp

@[simp] theorem opPhase_trace :
    (opPhase op txb ackarg peer r n).trace = r.trace ++ [r.lines.act (action op n txb ackarg)] := by
  unfold opPhase; split <;> simp

/-- The lines after phases 0 to `n` are those the actions give from the starting pair (R41 item 6, R116). -/
theorem opPhases_lines :
    (opPhases op txb ackarg peer r (n + 1)).lines = linesThrough op txb ackarg r.lines n := by
  induction n with
  | zero => simp [opPhases, linesThrough]
  | succ n ih => rw [opPhases, opPhase_lines, ih]; rfl

/-- The trace lists the line pair of each phase in order (R116). -/
theorem opPhases_trace :
    (opPhases op txb ackarg peer r n).trace =
      r.trace ++ (List.range n).map (linesThrough op txb ackarg r.lines) := by
  induction n with
  | zero => simp [opPhases]
  | succ n ih =>
    have hl := opPhases_lines op txb ackarg peer r n
    rw [opPhases, opPhase_lines] at hl
    rw [opPhases, opPhase_trace, ih, hl]
    simp [List.range_succ]

/-- A phase that does not sample leaves `rxb`, `nak` and the sample count alone (R111). -/
theorem opPhase_of_not_samples (h : samples op n = false) :
    (opPhase op txb ackarg peer r n).rxb = r.rxb ∧ (opPhase op txb ackarg peer r n).nak = r.nak ∧
      (opPhase op txb ackarg peer r n).drawn = r.drawn := by
  simp [opPhase, h]

end Phase

/-- In every sampling phase both lines are released, whatever pair the command started with (R41 item 4). -/
theorem linesThrough_sampling {op : Opcode} {txb : Byte} {ackarg : Bit} {p : Lines} {n : Nat}
    (h : samples op n = true) : linesThrough op txb ackarg p n = ⟨true, true⟩ := by
  cases op
  case start => simp [samples] at h
  case stop => simp [samples] at h
  case send =>
    obtain rfl : n = 25 := by simpa [samples] using h
    simp [linesThrough, action, sendAction, driveScl, driveSda, Lines.act, Lines.drive]
  case read =>
    obtain ⟨hodd, hle⟩ : n % 2 = 1 ∧ n ≤ 15 := by simpa [samples] using h
    interval_cases n <;> simp at hodd <;>
      simp [linesThrough, action, readAction, driveScl, driveSda, Lines.act, Lines.drive]

/-- The line pair of each command's last phase (R130, R131, R140, R150). -/
theorem linesThrough_start (txb : Byte) (ackarg : Bit) (p : Lines) :
    linesThrough .start txb ackarg p 1 = ⟨false, false⟩ := rfl

theorem linesThrough_stop (txb : Byte) (ackarg : Bit) (p : Lines) :
    linesThrough .stop txb ackarg p 1 = ⟨true, true⟩ := rfl

theorem linesThrough_send (txb : Byte) (ackarg : Bit) (p : Lines) :
    linesThrough .send txb ackarg p 26 = ⟨false, true⟩ := by
  simp [linesThrough, action, sendAction, driveScl, driveSda, Lines.act, Lines.drive]

theorem linesThrough_read (txb : Byte) (ackarg : Bit) (p : Lines) :
    linesThrough .read txb ackarg p 19 = ⟨false, !ackarg⟩ := by
  simp [linesThrough, action, readAction, driveScl, driveSda, Lines.act, Lines.drive]

end Sys2Proof.Machine
end

