-- ==== Sys2Proof/Laws/Command.lean ====
section
/-! SUPPORT. What a whole command does: the block at the start of each phase, the timetable of the clock edges, and
the state `perform` answers when no reset comes before the end (R115, R118). -/

namespace Sys2Proof.Machine

variable {tSettle : Nat}

/-- The block at the start of phase `n` of a command accepted in `c`, when no reset comes before. -/
def Circuit.phaseBlock (i : Instr) (c : Circuit tSettle) : Nat → Block tSettle
  | 0 => c.block.accept i
  | n + 1 =>
    ((c.phaseBlock i n).takeSample
      ((c.stimulusAt ((n + 1) * tSettle - 1)).ports (c.phaseBlock i n).sda)).beginPhase
        (BitVec.ofNat 5 (n + 1))

section PhaseBlock
variable (i : Instr) (c : Circuit tSettle) (n : Nat)

@[simp] theorem Circuit.phaseBlock_st : (c.phaseBlock i n).st = .run := by
  induction n <;> simp [Circuit.phaseBlock, *]

@[simp] theorem Circuit.phaseBlock_op : (c.phaseBlock i n).op = i.opcode := by
  induction n <;> simp [Circuit.phaseBlock, *]

@[simp] theorem Circuit.phaseBlock_dly : (c.phaseBlock i n).dly = loadValue tSettle := by
  cases n <;> simp [Circuit.phaseBlock]

@[simp] theorem Circuit.phaseBlock_txb : (c.phaseBlock i n).txb = (c.block.latch i).txb := by
  induction n <;> simp [Circuit.phaseBlock, *]

@[simp] theorem Circuit.phaseBlock_ackarg : (c.phaseBlock i n).ackarg = (c.block.latch i).ackarg := by
  induction n <;> simp [Circuit.phaseBlock, *]

@[simp] theorem Circuit.phaseBlock_ph : (c.phaseBlock i n).ph = BitVec.ofNat 5 n := by
  cases n <;> simp [Circuit.phaseBlock]

theorem Circuit.phaseBlock_ph_toNat (h : n ≤ lastPhase i.opcode) :
    (c.phaseBlock i n).ph.toNat = n := by
  have := lastPhase_le i.opcode
  rw [Circuit.phaseBlock_ph, BitVec.toNat_ofNat]
  exact Nat.mod_eq_of_lt (by omega)

theorem Circuit.phaseBlock_lines (h : n ≤ lastPhase i.opcode) :
    (c.phaseBlock i n).lines =
      linesThrough i.opcode (c.block.latch i).txb (c.block.latch i).ackarg c.block.lines n := by
  induction n with
  | zero => simp [Circuit.phaseBlock, linesThrough]
  | succ n ih =>
    have hn : (BitVec.ofNat 5 (n + 1)).toNat = n + 1 := by
      rw [← Circuit.phaseBlock_ph i c (n + 1)]; exact c.phaseBlock_ph_toNat i (n + 1) h
    rw [Circuit.phaseBlock, Block.beginPhase_lines, hn, Block.takeSample_lines, ih (by omega)]
    simp [linesThrough]

/-- SEND's `nak` holds the peer's bit of phase 25 once that phase has ended, and no other command writes it. -/
theorem Circuit.phaseBlock_nak (h : n ≤ lastPhase i.opcode) :
    (c.phaseBlock i n).nak =
      if i.opcode = .send ∧ 25 < n then c.peerAtPhaseEnd 25 else c.block.nak := by
  induction n with
  | zero => simp [Circuit.phaseBlock]
  | succ n ih =>
    rw [Circuit.phaseBlock, Block.beginPhase_nak, Block.takeSample_nak, ih (by omega), Circuit.phaseBlock_op,
      c.phaseBlock_ph_toNat i n (by omega)]
    by_cases hs : i.opcode = .send
    · by_cases hn : n = 25
      · have hl := c.phaseBlock_lines i n (by omega)
        rw [hs, hn, linesThrough_sampling rfl] at hl
        simp [hs, hn, samples, sample, Stimulus.ports, wiredAnd, Lines.eq_sda hl, Circuit.peerAtPhaseEnd]
      · have : (25 < n + 1) = (25 < n) := by simp; omega
        simp [hs, hn, samples, this]
    · simp [hs]

/-- READ's `rxb` has taken in the peer's bits of the sampling phases that have ended, and no other command
writes it. -/
theorem Circuit.phaseBlock_rxb (h : n ≤ lastPhase i.opcode) :
    (c.phaseBlock i n).rxb =
      if i.opcode = .read then
        ((List.range n).filter (samples .read)).foldl (fun r ph => shiftIn r (c.peerAtPhaseEnd ph)) c.block.rxb
      else c.block.rxb := by
  induction n with
  | zero => simp [Circuit.phaseBlock]
  | succ n ih =>
    rw [Circuit.phaseBlock, Block.beginPhase_rxb, Block.takeSample_rxb, ih (by omega), Circuit.phaseBlock_op,
      c.phaseBlock_ph_toNat i n (by omega)]
    by_cases hr : i.opcode = .read
    · by_cases hn : samples .read n = true
      · have hl := c.phaseBlock_lines i n (by omega)
        rw [hr, linesThrough_sampling hn] at hl
        simp [hr, hn, sample, Stimulus.ports, wiredAnd, Lines.eq_sda hl, Circuit.peerAtPhaseEnd,
          List.range_succ]
      · simp [hr, hn, List.range_succ]
    · simp [hr]

end PhaseBlock

/-- A settle delay is one cycle and the rest of it. -/
theorem replicate_settle (ht : 1 ≤ tSettle) (p : Lines) :
    List.replicate tSettle p = p :: List.replicate (tSettle - 1) p := by
  conv_lhs => rw [← Nat.sub_add_cancel ht, List.replicate_succ]

/-- The circuit `n` phases and `m < T_SETTLE` cycles after accepting a command, with no reset so far (R115, R119). -/
theorem Circuit.clockEdges_in_phase (ht : 1 ≤ tSettle) (i : Instr) (c : Circuit tSettle) {n m : Nat} (hn : n ≤ lastPhase i.opcode)
    (hm : m ≤ tSettle - 1) (hr : c.noReset (n * tSettle + m)) :
    (c.acceptEdge i).clockEdges (n * tSettle + m) =
      { block := { c.phaseBlock i n with dly := loadValue tSettle - BitVec.ofNat _ m }
        inputs := c.inputs.drop (n * tSettle + m)
        cycle := c.cycle + (n * tSettle + m)
        bus := c.bus ++ ((List.range n).flatMap fun k => List.replicate tSettle (c.phaseBlock i k).lines)
          ++ List.replicate (m + 1) (c.phaseBlock i n).lines } := by
  induction n generalizing m with
  | zero =>
    have hr' : (c.acceptEdge i).noReset m := fun k hk => by simpa using hr k (by omega)
    rw [Nat.zero_mul, Nat.zero_add,
      Circuit.clockEdges_waiting (by simp) (by simpa using hm) hr']
    simp [Circuit.phaseBlock, Circuit.acceptEdge, List.replicate_succ, Circuit.commit]
  | succ n ih =>
    -- the state one cycle before phase `n` ends
    have hlast := ih (m := tSettle - 1) (by omega) (Nat.le_refl _)
      (Circuit.noReset_mono hr (by rw [Nat.succ_mul]; omega))
    generalize hu : (c.acceptEdge i).clockEdges (n * tSettle + (tSettle - 1)) = u at hlast
    have hsplit : (n + 1) * tSettle + m = (n * tSettle + (tSettle - 1)) + (m + 1) := by
      rw [Nat.succ_mul]; omega
    have hustim : ∀ k, u.stimulusAt k = c.stimulusAt (n * tSettle + (tSettle - 1) + k) := fun k => by
      rw [← hu, Circuit.clockEdges_stimulusAt]; simp
    have hurst : u.noReset (m + 1) := fun k hk => by
      rw [hustim]; exact hr _ (by rw [hsplit]; omega)
    have hub : u.block = { c.phaseBlock i n with dly := 0 } := by rw [hlast, loadValue, sub_self]
    have hph : u.block.ph.toNat = n := by
      rw [hub]; exact c.phaseBlock_ph_toNat i n (by omega)
    have hedge : u.clockEdge.block = c.phaseBlock i (n + 1) := by
      rw [Circuit.clockEdge_block, Block.step_of_phaseEnd (Circuit.noReset_head hurst) (by rw [hub]; simp)
        (by rw [hub]) (by rw [hph, hub]; simp; omega)]
      have hcyc : n * tSettle + (tSettle - 1) = (n + 1) * tSettle - 1 := by
        rw [Nat.succ_mul]; omega
      have hsucc : u.block.ph + 1 = BitVec.ofNat 5 (n + 1) := by
        rw [hub]; simp [BitVec.ofNat_add]
      rw [Circuit.phaseBlock, hustim, Nat.add_zero, hcyc, hsucc, hub]
      exact Block.beginPhase_takeSample_dly ..
    have hrun : u.clockEdge.block.st = .run := by rw [hedge]; simp
    rw [hsplit, Circuit.clockEdges_add, hu, Circuit.clockEdges,
      Circuit.clockEdges_waiting hrun (by rw [hedge]; simpa using hm) (Circuit.noReset_clockEdge hurst),
      Circuit.clockEdge_bus, hedge]
    simp [hlast, List.range_succ, List.replicate_succ, replicate_settle ht, Nat.add_assoc, Nat.add_comm 1 m]

/-- A command that meets no reset before its end (R115, R118): `busyCycles` cycles after acceptance its last phase
ends; the lines were held phase by phase. -/
theorem Circuit.perform_eq (ht : 1 ≤ tSettle) (i : Instr) {c : Circuit tSettle} (hs : c.block.st = .idle)
    (hr : c.noReset (busyCycles i.opcode tSettle)) :
    c.perform i =
      { block := { c.phaseBlock i (lastPhase i.opcode) with dly := 0 }.endCommand
        inputs := c.inputs.drop (busyCycles i.opcode tSettle)
        cycle := c.cycle + busyCycles i.opcode tSettle
        bus := c.bus ++ wireTrace i.opcode (c.block.latch i).txb (c.block.latch i).ackarg c.block.lines
            tSettle ++
          [linesThrough i.opcode (c.block.latch i).txb (c.block.latch i).ackarg c.block.lines
            (lastPhase i.opcode)] } := by
  have hbusy : busyCycles i.opcode tSettle =
      (lastPhase i.opcode * tSettle + (tSettle - 1)) + 1 := by
    rw [busyCycles, Nat.succ_mul]; omega
  have hin : ∀ k < busyCycles i.opcode tSettle,
      ((c.acceptEdge i).clockEdges k).block.st = .run := fun k hk => by
    have hk' : k / tSettle ≤ lastPhase i.opcode := by
      rw [← Nat.lt_succ_iff]; exact Nat.div_lt_of_lt_mul (by rw [Nat.mul_comm]; exact hk)
    have hm : k % tSettle ≤ tSettle - 1 := Nat.le_sub_one_of_lt (Nat.mod_lt k ht)
    have hdiv : k / tSettle * tSettle + k % tSettle = k := by
      rw [Nat.mul_comm]; exact Nat.div_add_mod k tSettle
    have := Circuit.clockEdges_in_phase ht i c hk' hm (by rw [hdiv]; exact Circuit.noReset_mono hr (Nat.le_of_lt hk))
    rw [hdiv] at this
    rw [this]; simp
  rw [Circuit.perform_of_ready hs, Circuit.runBusy_eq_clockEdges hin, hbusy, Circuit.clockEdges_add]
  have hlast := Circuit.clockEdges_in_phase ht i c (Nat.le_refl (lastPhase i.opcode)) (Nat.le_refl (tSettle - 1))
    (Circuit.noReset_mono hr (by rw [hbusy]; omega))
  generalize hu : (c.acceptEdge i).clockEdges (lastPhase i.opcode * tSettle + (tSettle - 1)) = u at hlast
  have hub : u.block = { c.phaseBlock i (lastPhase i.opcode) with dly := 0 } := by rw [hlast, loadValue, sub_self]
  have hurst : (u.stimulusAt 0).rst = false := by
    rw [← hu, Circuit.clockEdges_stimulusAt]; simpa using hr _ (by rw [hbusy]; omega)
  have hedge : u.clockEdge.block = { c.phaseBlock i (lastPhase i.opcode) with dly := 0 }.endCommand := by
    rw [Circuit.clockEdge_block, Block.step_of_lastEnd hurst (by rw [hub]; simp) (by rw [hub])
      (by rw [hub]; simpa using c.phaseBlock_ph_toNat i _ (Nat.le_refl _)), hub]
  have hlines : ({ c.phaseBlock i (lastPhase i.opcode) with dly := 0 } : Block tSettle).lines =
      linesThrough i.opcode (c.block.latch i).txb (c.block.latch i).ackarg c.block.lines
        (lastPhase i.opcode) := c.phaseBlock_lines i _ (Nat.le_refl _)
  have htrace : wireTrace i.opcode (c.block.latch i).txb (c.block.latch i).ackarg c.block.lines tSettle =
      (List.range (lastPhase i.opcode)).flatMap (fun k => List.replicate tSettle (c.phaseBlock i k).lines) ++
        List.replicate tSettle (c.phaseBlock i (lastPhase i.opcode)).lines := by
    rw [wireTrace, List.range_succ, List.flatMap_append, c.phaseBlock_lines i _ (Nat.le_refl _)]
    simp only [List.flatMap_cons, List.flatMap_nil, List.append_nil]
    congr 1
    rw [List.flatMap_def, List.flatMap_def]
    congr 1
    exact List.map_congr_left fun k hk => by
      rw [c.phaseBlock_lines i k (by have := List.mem_range.mp hk; omega)]
  rw [Circuit.clockEdges, Circuit.clockEdges, htrace]
  have e1 : u.clockEdge = { u with block := u.clockEdge.block, inputs := u.inputs.tail,
                                   cycle := u.cycle + 1, bus := u.bus ++ [u.clockEdge.block.lines] } := rfl
  rw [e1, hedge, Block.endCommand_lines, hlines, hlast]
  simp [Nat.add_assoc, Nat.sub_add_cancel ht]

end Sys2Proof.Machine
end

