-- ==== Sys2Proof/Laws/PerInstr.lean ====
section
/-! SUPPORT. Statements about every command as syntax, one lemma per constructor. -/

namespace Sys2Proof.Laws.EncodesRow

/-- A command's word matches its own row of the opcode table and no other (R81). -/
def Statement (i : Instr) : Prop := ∀ o : Opcode, matchesRow o (encode i) = decide (o = i.opcode)

/-- The masked bits of a word are its opcode field. -/
theorem masked (o : Opcode) (x : Byte) : (opcodeBits o ++ x) &&& rowMask = rowMatch o := by
  rw [show rowMask = (0b11 : BitVec 2) ++ (0 : Byte) from rfl, BitVec.and_append]
  cases o <;> simp [opcodeBits, rowMatch]

theorem any (i : Instr) : Statement i := fun o => by
  rw [matchesRow, encode, masked]
  cases i <;> cases o <;> rfl

theorem start : Statement .start := any _
theorem stop : Statement .stop := any _
theorem send (byte : Byte) : Statement (.send byte) := any _
theorem read (ack : Bit) : Statement (.read ack) := any _

end Sys2Proof.Laws.EncodesRow
end

