-- ==== Sys2Proof/Tests/Slice0.lean ====
section
/-! SUPPORT. Tests. Expected results are copied from `spec/95_test_vectors.md` (the vector's name stands in each
comment) or written out from the encoding of `spec/30_encoding.md`. After them, one witness per statement with
hypotheses: a concrete state and operands that meet all of them together. -/

namespace Sys2Proof.Tests

open Sys2Proof.Machine

/-! ## Helpers -/

/-- A line pair from its two digits `cd` (R11). -/
def pair (n : Nat) : Lines := ⟨decide (10 ≤ n), decide (n % 10 = 1)⟩

/-- A ready machine with `T_SETTLE = reload + 1`, line pair `cd`, a value of `rxb`, and a quiet host; the peer's
bits of the coming cycles are listed. -/
def ready (reload cd : Nat) (rxb : Byte) (peer : List Bit) : State :=
  let s := State.resetWith reload (peer.map Stimulus.quiet)
  s.put { s.circuit with block := { s.circuit.block with scl := (pair cd).scl, sda := (pair cd).sda, rxb := rxb } }

/-- The state an outcome answers, if it answers one. -/
def result (o : Host.Outcome State Fault Refusal) : Option State :=
  match o with
  | .next s => some s
  | .fault _ => none
  | .refused _ => none

/-- The wire record and sequencer state after a command. -/
def after (i : Instr) (s : State) : Option (List Lines × SeqState) :=
  (result (exec i s)).map fun t => (t.circuit.bus, t.circuit.block.st)

/-- The ports of one cycle, from the columns of `95_test_vectors.md` section 3.4. -/
def ports (rst valid : Bit) (w : CmdWord) (sda : Bit) : PortIn := ⟨rst, valid, opField w, argField w, sda⟩

/-- A block in RUN. -/
def running (t : Nat) (op : Opcode) (ph : BitVec 5) (dly cd : Nat) : Block t :=
  { (Block.reset : Block t) with st := .run, op := op, ph := ph, dly := BitVec.ofNat _ dly,
                                 scl := (pair cd).scl, sda := (pair cd).sda }

/-- A block in the fatal halt (R41 item 5). -/
def haltedBlock (t : Nat) : Block t :=
  { (Block.reset : Block t) with st := .halt, op := .send, ph := 26, nak := true, scl := false }

/-- The machine around a block, with `T_SETTLE = 1`, a quiet host and an absent peer for 27 cycles. -/
def around (b : Block 1) : State :=
  let s := State.resetWith 0 (List.replicate 27 (Stimulus.quiet true))
  s.put { s.circuit with block := b }

/-! ## Encoding: words written out bit by bit from R80 and R81 -/

theorem test_decode_start : decodeWord 0b00_00000000 = .start ∧ decodeWord 0b00_11111111 = .start := by decide

theorem test_decode_stop : decodeWord 0b01_00000000 = .stop ∧ decodeWord 0b01_10100101 = .stop := by decide

theorem test_decode_send : decodeWord 0b10_10100101 = .send 0xA5 ∧ decodeWord 0b10_01000000 = .send 0x40 := by
  decide

theorem test_decode_read :
    decodeWord 0b11_00000000 = .read false ∧ decodeWord 0b11_00000001 = .read true ∧
    decodeWord 0b11_11111110 = .read false ∧ decodeWord 0b11_11111111 = .read true := by decide

/-- The words of R86. -/
theorem test_encode :
    encode .start = 0x000 ∧ encode .stop = 0x100 ∧ encode (.send 0xA5) = 0x2A5 ∧ encode (.read true) = 0x301 := by
  decide

theorem test_decodeTableWord :
    decodeTableWord 16 0x2A5 = some (.send 0xA5) ∧ decodeTableWord 16 0x300 = some (.read false) := by decide

/-! ## Well-formedness: an ill-formed term for each check -/

theorem test_word_too_wide : isCmdWord 1024 = false ∧ isCmdWord 1023 = true := by decide

theorem test_wide_word_refused : decodeTableWord 16 0x400 = none := by decide

/-- `0x1A5` carries ignored bits (R84). -/
theorem test_word_with_ignored_bits : encode (decodeWord 0x1A5) ≠ 0x1A5 := by decide

/-- SEND without START, START inside a frame, a frame left open (R184 item 4). -/
theorem test_not_framed :
    isFramed [.send 0x78] = false ∧ isFramed [.start, .start, .stop] = false ∧ isFramed [.start] = false := by
  decide

/-- Program P1: `TXN_CMD 0xA5` is START, SEND 0x78, SEND 0x00, SEND 0xA5, STOP. -/
theorem test_txnCmd :
    txnCmd 0x78 [0xA5] = [.start, .send 0x78, .send 0x00, .send 0xA5, .stop] ∧
    isFramed (txnCmd 0x78 [0xA5]) = true := by decide

/-! ## Commands: the phase traces, one pair a cycle, and the cycle after the command -/

/-- F1 at `T_SETTLE = 2`: `0:10 1:00`, lines `00`. -/
theorem test_start_from_idle_bus :
    after .start (ready 1 11 0 []) = some ([10, 10, 00, 00, 00].map pair, .idle) := by decide

/-- F2: `0:00 1:00`. -/
theorem test_start_after_send : after .start (ready 0 01 0 []) = some ([00, 00, 00].map pair, .idle) := by decide

/-- F7 at `T_SETTLE = 2`: `0:10 1:11`, lines `11`. -/
theorem test_stop_after_start :
    after .stop (ready 1 00 0 []) = some ([10, 10, 11, 11, 11].map pair, .idle) := by decide

/-- F6: `0:11 1:11`. -/
theorem test_stop_after_send : after .stop (ready 0 01 0 []) = some ([11, 11, 11].map pair, .idle) := by decide

/-- The trace of S5 and S9, and the pair `01` after it. -/
def traceSendA5 : List Lines :=
  [01, 11, 01, 00, 10, 00, 01, 11, 01, 00, 10, 00, 00, 10, 00, 01, 11, 01, 00, 10, 00, 01, 11, 01,
    01, 11, 01, 01].map pair

/-- S5: SEND 0xA5 acknowledged; only the cycle of phase 25 has the peer's bit 0. -/
theorem test_send_acknowledged :
    after (.send 0xA5) (ready 0 00 0 (List.replicate 25 true ++ [false, true])) =
      some (traceSendA5, .idle) := by decide

/-- S9: SEND 0xA5 not acknowledged: the same trace, then HALT. -/
theorem test_send_not_acknowledged :
    after (.send 0xA5) (ready 0 00 0 (List.replicate 25 false ++ [true, false])) =
      some (traceSendA5, .halt) := by decide

/-- R1: READ 1, peer 0,0,1,1,1,1,0,0 on the pulses, `rx_data = 0x3C`, lines `00`. -/
theorem test_read_acknowledge :
    (result (exec (.read true) (ready 0 01 0x00
      [true, false, true, false, true, true, true, true, true, true, true, true, true, false, true, false]))).map
        (fun t => (t.circuit.block.rxData, t.circuit.block.lines, t.circuit.bus.drop 16)) =
      some (0x3C, pair 00, [01, 00, 10, 00, 00].map pair) := by decide

/-- R8: READ 0 from lines `10`, peer 1,1,0,0,0,0,1,1, `rx_data = 0xC3`, lines `01`. -/
theorem test_read_no_acknowledge :
    (result (exec (.read false) (ready 0 10 0x00
      [true, true, true, true, true, false, true, false, true, false, true, false, true, true, true, true]))).map
        (fun t => (t.circuit.block.rxData, t.circuit.block.lines, t.circuit.bus.take 3)) =
      some (0xC3, pair 01, [11, 11, 01].map pair) := by decide

/-! ## The width of the delay counter (R7): the smallest `w >= 1` with `2^w >= T_SETTLE` -/

theorem test_wDly : [1, 2, 3, 4, 5, 8, 9].map Config.wDly = [1, 1, 2, 2, 3, 3, 4] := by decide

/-! ## Edges of the sequencer, rows of section 3.4 -/

/-- Q1, cycles 1 to 4: acceptance, then a STOP presented while busy is ignored. -/
theorem test_q1_accept_and_ignore :
    (Block.reset : Block 2).step (ports false true 0x000 false) = running 2 .start 0 1 10 ∧
    (running 2 .start 0 1 10).step (ports false true 0x100 false) = running 2 .start 0 0 10 ∧
    (running 2 .start 0 0 10).step (ports false true 0x100 false) = running 2 .start 1 1 00 := by decide

/-- Q4, cycles 5, 8 and 11: the sample, the halt, and reset out of the halt. -/
theorem test_q4_sample_halt_reset :
    ((running 3 .send 25 0 11).step (ports false false 0 true)).nak = true ∧
    ({ running 3 .send 26 0 01 with nak := true }.step (ports false false 0 false)).st = .halt ∧
    (haltedBlock 3).step (ports true false 0 false) = Block.reset := by decide

/-- Q5, cycle 2: reset in the middle of a SEND releases both lines; the command presented is not accepted. -/
theorem test_q5_reset_mid_send :
    (running 2 .send 4 1 10).step (ports true true 0x2FF false) = Block.reset := by decide

/-- Q6, cycles 2 and 4: the samples 0 and 1 shift into `0xFF` and `0xFE`. -/
theorem test_q6_samples :
    ({ running 1 .read 1 0 11 with rxb := 0xFF }.step (ports false false 0 false)).rxb = 0xFE ∧
    ({ running 1 .read 3 0 11 with rxb := 0xFE }.step (ports false false 0 true)).rxb = 0xFD := by decide

/-- The state whose next input cycle is taken. -/
def consumed (s : State) : State := s.put s.circuit.consume

/-- The step of the machine runs the word presented after reset. -/
theorem test_withFetchWord_runs_command :
    step (State.reset.withFetchWord 16 0x000) = exec .start (consumed (State.reset.withFetchWord 16 0x000)) ∧
    step (State.reset.withFetchWord 16 0x100) = exec .stop (consumed (State.reset.withFetchWord 16 0x100)) ∧
    step (State.reset.withFetchWord 16 0x2A5) = exec (.send 0xA5) (consumed (State.reset.withFetchWord 16 0x2A5)) ∧
    step (State.reset.withFetchWord 16 0x301) = exec (.read true) (consumed (State.reset.withFetchWord 16 0x301)) :=
  ⟨rfl, rfl, rfl, rfl⟩

/-! ## Witnesses -/

/-- A quiet host asserts no reset. -/
theorem noReset_ready (reload cd : Nat) (rxb : Byte) (peer : List Bit) (n : Nat) :
    (ready reload cd rxb peer).circuit.noReset n := fun k _ => by
  cases h : peer[k]? <;> simp [Circuit.stimulusAt, ready, State.resetWith, Stimulus.quiet, h]

theorem noReset_around (b : Block 1) (n : Nat) : (around b).circuit.noReset n :=
  fun k hk => noReset_ready 0 11 0 (List.replicate 27 true) n k hk

/-- A machine in the fatal halt. -/
def halting : State := around (haltedBlock 1)

/-- A ready machine whose peer never drives the data line. -/
def absent : State := around Block.reset

theorem inv_halted : BlockInv (haltedBlock 1) := by constructor <;> simp [haltedBlock, Block.reset]

theorem inv_running : BlockInv (running 2 .send 25 1 11) := by
  constructor
  case lines_run => exact fun _ => ⟨⟨true, true⟩, by decide⟩
  all_goals decide

theorem wit_IgnoredOperandBits :
    decodeOpcode (ports false true 0x0FF false).cmdOp = .start ∧
    decodeOpcode (ports false true 0x1A5 false).cmdOp = .stop ∧
    decodeOpcode (ports false true 0x3FE false).cmdOp = .read ∧
    (0x00 : Byte).getLsbD 0 = (ports false true 0x3FE false).cmdArg.getLsbD 0 := by decide

theorem wit_ResetEdge : (ports true true 0x2FF false).rst = true := rfl

theorem wit_MachineResetStep :
    ((State.resetWith 0 [⟨true, true, 0b10, 0xFF, false⟩]).circuit.stimulusAt 0).rst = true := rfl

theorem wit_OutputFunctions : (running 2 .send 25 0 11).st = .run := rfl

theorem wit_PhaseTables : (0 : Nat) < 8 ∧ 7 < 8 := by decide

theorem wit_SamplingPhases : samples .send 25 = true ∧ samples .read 1 = true ∧ samples .read 15 = true := by decide

theorem wit_AcceptanceEdge :
    (ports false true 0x2A5 true).rst = false ∧ (Block.reset : Block 2).st = .idle ∧
    (ports false true 0x2A5 true).cmdValid = true ∧
    [0x000, 0x100, 0x2A5, 0x301].map (fun w => decodeOpcode (ports false true w true).cmdOp) =
      [.start, .stop, .send, .read] := by decide

theorem wit_IdleHolds :
    ((ports false false 0 true).rst = false ∧ (Block.reset : Block 2).st = .idle ∧
      (ports false false 0 true).cmdValid = false) ∧
    (ready 0 11 0 []).circuit.block.st = .idle ∧
    (∀ k < 3, ((ready 0 11 0 []).circuit.stimulusAt k).rst = false ∧
      ((ready 0 11 0 []).circuit.stimulusAt k).cmdValid = false) :=
  ⟨by decide, rfl, fun _ _ => ⟨rfl, rfl⟩⟩

theorem wit_DelayEdge :
    (ports false true 0x100 true).rst = false ∧ (running 2 .start 0 1 10).st = .run ∧
    (running 2 .start 0 1 10).dly ≠ 0 := by decide

theorem wit_SampleEdge :
    ∀ b ∈ [running 2 .send 25 0 11, running 2 .read 1 0 11, running 2 .read 15 0 11],
      (ports false false 0 true).rst = false ∧ b.st = .run ∧ b.dly = 0 ∧ samples b.op b.ph.toNat = true := by
  decide

theorem wit_PhaseEdge :
    ∀ b ∈ [running 2 .start 0 0 10, running 2 .send 25 0 11, running 2 .read 18 0 11],
      (ports false true 0x100 true).rst = false ∧ b.st = .run ∧ b.dly = 0 ∧ b.ph.toNat < lastPhase b.op := by
  decide

theorem wit_LastPhaseEdge :
    ∀ b ∈ [running 2 .stop 1 0 11, running 2 .send 26 0 01, { running 2 .send 26 0 01 with nak := true }],
      (ports false true 0x100 true).rst = false ∧ b.st = .run ∧ b.dly = 0 ∧ b.ph.toNat = lastPhase b.op := by
  decide

theorem wit_HaltHolds :
    (haltedBlock 1).st = .halt ∧ ((haltedBlock 1).step (ports true false 0 false)).st ≠ .halt ∧
    halting.circuit.block.st = .halt ∧ halting.circuit.noReset 5 ∧
    BlockInv halting.circuit.block ∧ (halting.circuit.stimulusAt 0).rst = false :=
  ⟨rfl, by decide, rfl, noReset_around _ _, inv_halted, rfl⟩

theorem wit_OnlyUnacknowledgedSendHalts :
    ({ running 1 .send 26 0 01 with nak := true } : Block 1).st ≠ .halt ∧
    ({ running 1 .send 26 0 01 with nak := true }.step (ports false false 0 false)).st = .halt := by decide

theorem wit_BusyBlockIgnoresCommands :
    (running 2 .send 25 0 11).st ≠ .idle ∧
    (ports false true 0x100 true).rst = (ports false false 0x2A5 true).rst ∧
    (ports false true 0x100 true).sdaIn = (ports false false 0x2A5 true).sdaIn := by decide

theorem wit_DataLineReadOnlyWhenSampling :
    ¬((running 2 .send 24 0 01).st = .run ∧ (running 2 .send 24 0 01).dly = 0 ∧
      samples (running 2 .send 24 0 01).op (running 2 .send 24 0 01).ph.toNat = true) := by decide

theorem wit_RegisterWriters :
    ((running 1 .read 14 0 01).step (ports false false 0 true)).scl ≠ (running 1 .read 14 0 01).scl ∧
    ((Block.reset : Block 1).step (ports false true 0x000 false)).sda ≠ (Block.reset : Block 1).sda ∧
    ((running 1 .send 24 0 01).step (ports false false 0 true)).scl ≠ (running 1 .send 24 0 01).scl ∧
    ((running 1 .send 23 0 00).step (ports false false 0 true)).sda ≠ (running 1 .send 23 0 00).sda ∧
    ((running 1 .stop 1 0 11).step (ports false false 0 true)).st ≠ (running 1 .stop 1 0 11).st ∧
    ((running 1 .stop 0 0 10).step (ports false false 0 true)).ph ≠ (running 1 .stop 0 0 10).ph ∧
    ((running 2 .stop 0 1 10).step (ports false false 0 true)).dly ≠ (running 2 .stop 0 1 10).dly ∧
    ((Block.reset : Block 1).step (ports false true 0x2A5 false)).op ≠ (Block.reset : Block 1).op ∧
    ((Block.reset : Block 1).step (ports false true 0x2A5 false)).txb ≠ (Block.reset : Block 1).txb ∧
    ((Block.reset : Block 1).step (ports false true 0x301 false)).ackarg ≠ (Block.reset : Block 1).ackarg ∧
    ((running 1 .read 15 0 11).step (ports false false 0 true)).rxb ≠ (running 1 .read 15 0 11).rxb ∧
    ((running 1 .send 25 0 11).step (ports false false 0 true)).nak ≠ (running 1 .send 25 0 11).nak := by decide

theorem wit_LinesChangeOnlyAtPhaseStart :
    ((haltedBlock 1).step (ports true false 0 false)).lines ≠ (haltedBlock 1).lines ∧
    ((Block.reset : Block 1).step (ports false true 0 false)).lines ≠ (Block.reset : Block 1).lines ∧
    ((running 1 .send 24 0 01).step (ports false false 0 false)).lines ≠ (running 1 .send 24 0 01).lines := by decide

theorem wit_EdgeKeepsInvariant : 1 ≤ 2 ∧ BlockInv (running 2 .send 25 1 11) := ⟨by decide, inv_running⟩

theorem wit_StepKeepsInvariant :
    halting.Inv ∧ step halting = .next halting.clockEdge :=
  ⟨inv_halted, rfl⟩

theorem wit_CountersFitTheirRegisters :
    BlockInv (running 2 .send 25 1 11) ∧ (running 2 .send 25 1 11).dly ≠ 0 ∧ (running 2 .send 25 1 11).st = .run ∧
    (running 2 .send 25 1 11).ph.toNat ≠ lastPhase (running 2 .send 25 1 11).op :=
  ⟨inv_running, by decide, rfl, by decide⟩

/-- A ready machine to which the host presents START in the next cycle. -/
def presenting : State := State.resetWith 0 [⟨false, true, 0b00, 0x00, true⟩]

theorem wit_StepRunsDecodedCommand :
    ((presenting.circuit.stimulusAt 0).rst = false ∧ presenting.circuit.block.st = .idle ∧
      (presenting.circuit.stimulusAt 0).cmdValid = true) ∧
    ¬((halting.circuit.stimulusAt 0).rst = false ∧ halting.circuit.block.st = .idle ∧
      (halting.circuit.stimulusAt 0).cmdValid = true) := by decide

theorem wit_BusyCommandTurnedAway : halting.circuit.block.st ≠ .idle := by decide

theorem wit_StepIsClockEdges :
    presenting.circuit.block.st = .idle ∧ (presenting.circuit.stimulusAt 0).cmdValid = true ∧
    presenting.circuit.noReset
      (1 + busyCycles (decodeOpcode (presenting.circuit.stimulusAt 0).cmdOp) presenting.tSettle) := by
  refine ⟨rfl, rfl, fun k hk => ?_⟩
  cases k <;> rfl

theorem wit_StepKeepsParameter : step halting = .next halting.clockEdge := rfl

theorem wit_StartCompletes : (ready 2 01 0 []).circuit.block.st = .idle ∧ (ready 2 01 0 []).circuit.noReset (2 * 3) :=
  ⟨rfl, noReset_ready _ _ _ _ _⟩

theorem wit_StopCompletes : (ready 2 10 0 []).circuit.block.st = .idle ∧ (ready 2 10 0 []).circuit.noReset (2 * 3) :=
  ⟨rfl, noReset_ready _ _ _ _ _⟩

/-- A ready machine whose peer drives the data line low for 27 cycles. -/
def acknowledging : State := ready 0 00 0 (List.replicate 27 false)

theorem wit_SendAcknowledgedCompletes :
    acknowledging.circuit.block.st = .idle ∧ acknowledging.circuit.noReset (27 * acknowledging.tSettle) ∧
    acknowledging.circuit.peerAtPhaseEnd 25 = false := ⟨rfl, noReset_ready _ _ _ _ _, by decide⟩

theorem wit_SendUnacknowledgedHalts :
    absent.circuit.block.st = .idle ∧ absent.circuit.noReset (27 * absent.tSettle) ∧
    absent.circuit.peerAtPhaseEnd 25 = true := ⟨rfl, noReset_around _ _, by decide⟩

theorem wit_ReadCompletes :
    acknowledging.circuit.block.st = .idle ∧ acknowledging.circuit.noReset (20 * acknowledging.tSettle) :=
  ⟨rfl, noReset_ready _ _ _ _ _⟩

theorem wit_CommandFrame :
    ∀ i ∈ [Instr.start, .stop, .send 0xA5, .read true],
      acknowledging.circuit.noReset (busyCycles i.opcode acknowledging.tSettle) ∧
      exec i acknowledging = .next (acknowledging.perform i) :=
  fun i _ => ⟨noReset_ready _ _ _ _ _, exec_eq i _ _⟩

theorem wit_ExecRefinesOperation :
    acknowledging.circuit.block.st = .idle ∧
    acknowledging.circuit.noReset (busyCycles (Instr.read true).opcode acknowledging.tSettle) :=
  ⟨rfl, noReset_ready _ _ _ _ _⟩

theorem wit_CommandTimetable :
    acknowledging.circuit.noReset (busyCycles Opcode.send acknowledging.tSettle) ∧
    0 < busyCycles Opcode.send acknowledging.tSettle ∧ 26 < busyCycles Opcode.send acknowledging.tSettle :=
  ⟨noReset_ready _ _ _ _ _, by decide, by decide⟩

/-- A ready machine whose host asserts `rst` in the fourth cycle after acceptance. -/
def resetting : State :=
  State.resetWith 0 ([true, true, true].map Stimulus.quiet ++ [⟨true, false, 0, 0, true⟩])

theorem wit_ResetAbandonsCommand :
    resetting.circuit.block.st = .idle ∧ 3 < busyCycles (Instr.send 0x00).opcode resetting.tSettle ∧
    resetting.circuit.noReset 3 ∧ (resetting.circuit.stimulusAt 3).rst = true := by
  refine ⟨rfl, by decide, fun k hk => ?_, rfl⟩
  interval_cases k <;> rfl

theorem wit_AbsentPeer :
    absent.circuit.block.st = .idle ∧ absent.circuit.noReset (27 * absent.tSettle) ∧
    (∀ k < 27 * absent.tSettle, (absent.circuit.stimulusAt k).peerSda = true) :=
  ⟨rfl, noReset_around _ _, by decide⟩

theorem wit_StuckLowDataLine :
    acknowledging.circuit.block.st = .idle ∧ acknowledging.circuit.noReset (27 * acknowledging.tSettle) ∧
    (∀ k < 27 * acknowledging.tSettle, (acknowledging.circuit.stimulusAt k).peerSda = false) :=
  ⟨rfl, noReset_ready _ _ _ _ _, by decide⟩

theorem wit_ReadAssemblesMsbFirst : (0 : Nat) < 8 ∧ 7 < 8 := by decide

theorem wit_SendDataStableWhileClockHigh : (pair 00).scl = false ∧ (pair 01).scl = false := by decide

theorem wit_UnacknowledgedSendEndsRun :
    opProgram (fun _ => true) [.start] ⟨pair 11, 0, false, 0, []⟩ =
      (.done, ⟨pair 00, 0, false, 0, [pair 10, pair 00]⟩) := by decide

end Sys2Proof.Tests
end

section
/-! PROOFS. The scope family: the delay counter's width, and a step as clock edges, which take the inputs in order
and record the lines (R7, R26, R27, R100). -/

namespace Sys2Proof.Machine

variable {tSettle : Nat}

/-! ## The width of the delay counter -/

/-- `W_DLY` is the least width of at least one bit that holds `T_SETTLE` values (R7, D25). -/
theorem wDly_le {t w : Nat} (hw : 1 ≤ w) (ht : t ≤ 2 ^ w) : Config.wDly t ≤ w :=
  max_le hw (Nat.clog_le_of_le_pow ht)

/-! ## A step as clock edges -/

theorem Circuit.clockEdges_succ (n : Nat) (c : Circuit tSettle) :
    c.clockEdges (n + 1) = (c.clockEdges n).clockEdge := Circuit.clockEdges_add n 1 c

/-- Clock edges append one line pair each to the record of the bus. -/
theorem Circuit.clockEdges_bus (n : Nat) (c : Circuit tSettle) :
    ∃ tail : List Lines, tail.length = n ∧ (c.clockEdges n).bus = c.bus ++ tail := by
  induction n with
  | zero => exact ⟨[], rfl, (List.append_nil _).symm⟩
  | succ n ih =>
    obtain ⟨tail, hlen, hbus⟩ := ih
    refine ⟨tail ++ [(c.clockEdges n).clockEdge.block.lines], by simp [hlen], ?_⟩
    rw [Circuit.clockEdges_succ, Circuit.clockEdge_bus, hbus, List.append_assoc]

/-- The edge at which a ready block is offered a command, without reset, is the accepting edge (R102). -/
theorem Circuit.clockEdge_of_offer {c : Circuit tSettle} (hr : (c.stimulusAt 0).rst = false)
    (hs : c.block.st = .idle) (hv : (c.stimulusAt 0).cmdValid = true) :
    c.clockEdge = c.consume.acceptEdge (decode (c.stimulusAt 0).cmdOp (c.stimulusAt 0).cmdArg) := by
  have hblock : c.block.step ((c.stimulusAt 0).ports c.block.sda) =
      c.block.accept (decode (c.stimulusAt 0).cmdOp (c.stimulusAt 0).cmdArg) := by
    simp [Block.step, Block.idleEdge, Stimulus.ports, hr, hs, hv]
  rw [Circuit.clockEdge, hblock]; rfl

/-- `runBusy` takes some number of clock edges. -/
theorem Circuit.exists_runBusy_eq_clockEdges (n : Nat) (c : Circuit tSettle) :
    ∃ k, c.runBusy n = c.clockEdges k :=
  Circuit.runBusy_induction (P := fun d => ∃ k, d = c.clockEdges k)
    (fun _ ⟨k, hk⟩ => ⟨k + 1, by rw [hk, Circuit.clockEdges_succ]⟩) n ⟨0, rfl⟩

/-- Every step is one or more clock edges of the circuit, at the same `T_SETTLE` (R100). -/
theorem step_eq_clockEdges (reload : Nat) (c : Circuit (reload + 1)) :
    ∃ n, 1 ≤ n ∧ step ⟨reload, c⟩ = .next ⟨reload, c.clockEdges n⟩ := by
  rcases step_cases reload c with ⟨hr, hs, hv, hstep⟩ | ⟨_, hstep⟩
  case inl =>
    rw [Circuit.perform_of_ready (show c.consume.block.st = .idle from hs),
      ← Circuit.clockEdge_of_offer hr hs hv] at hstep
    obtain ⟨k, hk⟩ := c.clockEdge.exists_runBusy_eq_clockEdges _
    exact ⟨k + 1, Nat.le_add_left 1 k, by rw [hstep, hk]; rfl⟩
  case inr => exact ⟨1, le_rfl, hstep⟩

/-! ## The obligations -/

/-- Settles O28: the width bounds of `W_DLY`, and the two counters' arithmetic (R7, R27, R114, R168). -/
theorem countersFitTheirRegisters : Obligations.CountersFitTheirRegisters := by
  intro t b hinv
  refine ⟨⟨le_max_left _ _, le_two_pow_wDly t, fun _ => wDly_le⟩, loadValue_toNat t, toNat_sub_one, fun hs hp => ?_⟩
  have hlt : b.ph.toNat < lastPhase b.op := Nat.lt_of_le_of_ne (hinv.ph_run hs) hp
  have hsucc := ph_succ_toNat hlt
  exact ⟨hsucc, hsucc ▸ Nat.le_trans hlt (lastPhase_le b.op)⟩

/-- Settles O33: a step is a run of clock edges, each of which takes one input and records one line pair. -/
theorem stepKeepsParameter : Obligations.StepKeepsParameter := by
  rintro ⟨reload, c⟩ s' h
  obtain ⟨n, hn, hstep⟩ := step_eq_clockEdges reload c
  cases hstep.symm.trans h
  exact ⟨rfl, n, hn, c.clockEdges_inputs n, c.clockEdges_cycle n, c.clockEdges_bus n⟩

end Sys2Proof.Machine
end

section
/-! PROOFS. The state family: who writes each register, what `sda_in` can reach, and the invariants of R41
(R21 to R41, R119). -/

namespace Sys2Proof.Machine

variable {tSettle : Nat}

/-! ## The invariants of R41 under each rule of an edge -/

/-- In RUN item 4 of R41 follows from item 6: the actions so far have released both lines in a sampling phase. -/
theorem BlockInv.of_run {b : Block tSettle} (hs : b.st = .run) (hdly : b.dly.toNat ≤ tSettle - 1)
    (hph : b.ph.toNat ≤ lastPhase b.op)
    (hlines : ∃ p : Lines, b.lines = linesThrough b.op b.txb b.ackarg p b.ph.toNat) : BlockInv b where
  dly_idle h := absurd hs h
  dly_run _ := hdly
  ph_run _ := hph
  sampling _ hsample := by
    obtain ⟨p, hp⟩ := hlines
    rw [linesThrough_sampling hsample] at hp
    exact ⟨Lines.eq_sda hp, Lines.eq_scl hp⟩
  halted h := by simp [hs] at h
  lines_run _ := hlines

theorem BlockInv.of_idle {b : Block tSettle} (hs : b.st = .idle) (hdly : b.dly = 0) : BlockInv b where
  dly_idle _ := hdly
  dly_run h := by simp [hs] at h
  ph_run h := by simp [hs] at h
  sampling h := by simp [hs] at h
  halted h := by simp [hs] at h
  lines_run h := by simp [hs] at h

theorem BlockInv.reset : BlockInv (Block.reset : Block tSettle) := .of_idle rfl rfl

/-- Acceptance establishes the invariants from any block (R102). -/
theorem BlockInv.accept (i : Instr) (b : Block tSettle) : BlockInv (b.accept i) :=
  .of_run (by simp) (by simp) (by simp) ⟨b.lines, by simp [linesThrough]⟩

/-- Waiting out the delay (R104). -/
theorem BlockInv.waiting {b : Block tSettle} (hinv : BlockInv b) (hs : b.st = .run) (hd : b.dly ≠ 0) :
    BlockInv { b with dly := b.dly - 1 } := by
  have hdly : (b.dly - 1).toNat ≤ tSettle - 1 := by
    have := hinv.dly_run hs
    rw [toNat_sub_one hd]; omega
  exact .of_run hs hdly (hinv.ph_run hs) (hinv.lines_run hs)

/-- The end of a phase that is not the last extends the actions so far by the next phase's (R105, R106). -/
theorem BlockInv.beginPhase_takeSample {b : Block tSettle} (hinv : BlockInv b) (x : PortIn) (hs : b.st = .run)
    (hp : b.ph.toNat ≠ lastPhase b.op) : BlockInv ((b.takeSample x).beginPhase (b.ph + 1)) := by
  have hlt : b.ph.toNat < lastPhase b.op := Nat.lt_of_le_of_ne (hinv.ph_run hs) hp
  have hsucc := ph_succ_toNat hlt
  obtain ⟨p, hlines⟩ := hinv.lines_run hs
  refine .of_run (by simpa using hs) (by simp) ?_ ⟨p, ?_⟩
  · rw [Block.beginPhase_ph, hsucc]; simpa using hlt
  · rw [Block.beginPhase_lines, Block.beginPhase_ph, hsucc]; simp [hlines, linesThrough]

/-- The end of the last phase: a SEND that halts leaves the lines `01` (R107, R165). -/
theorem BlockInv.endCommand {b : Block tSettle} (hinv : BlockInv b) (hs : b.st = .run) (hd : b.dly = 0)
    (hp : b.ph.toNat = lastPhase b.op) : BlockInv b.endCommand := by
  rcases b.endCommand_cases with ⟨hop, hnak, hend⟩ | ⟨_, hend⟩
  case inr => rw [hend]; exact .of_idle rfl hd
  case inl =>
    obtain ⟨p, hlines⟩ := hinv.lines_run hs
    rw [hp, hop, show lastPhase .send = 26 from rfl, linesThrough_send] at hlines
    have hph : b.ph = 26 := BitVec.eq_of_toNat_eq (by rw [hp, hop]; rfl)
    rw [hend]
    exact { dly_idle := fun _ => hd
            dly_run := nofun
            ph_run := nofun
            sampling := nofun
            halted := fun _ => ⟨hop, hph, hnak, Lines.eq_scl hlines, Lines.eq_sda hlines⟩
            lines_run := nofun }

/-- Every edge keeps the invariants, rule by rule (R41, R100). -/
theorem BlockInv.step {b : Block tSettle} (hinv : BlockInv b) (x : PortIn) : BlockInv (b.step x) := by
  rcases b.step_cases x with ⟨_, h⟩ | ⟨_, _, _, h⟩ | ⟨_, _, _, h⟩ | ⟨_, hs, hd, h⟩ | ⟨_, hs, _, hp, h⟩ |
    ⟨_, hs, hd, hp, h⟩ | ⟨_, _, h⟩ <;> rw [h]
  · exact .reset
  · exact .accept _ b
  · exact hinv
  · exact hinv.waiting hs hd
  · exact hinv.beginPhase_takeSample x hs hp
  · exact hinv.endCommand hs hd hp
  · exact hinv

/-- Any number of clock edges keeps the invariants, whatever the environment does. -/
theorem BlockInv.clockEdges {c : Circuit tSettle} (hinv : BlockInv c.block) (n : Nat) :
    BlockInv (c.clockEdges n).block := by
  induction n generalizing c with
  | zero => exact hinv
  | succ n ih => exact ih (c := c.clockEdge) (hinv.step _)

/-! ## What each rule of an edge can change -/

/-- The level of one line of a pair. -/
def Lines.level (p : Lines) : Line → Bit
  | .scl => p.scl
  | .sda => p.sda

theorem Lines.exists_of_act_level_ne {a : Option LineAction} {p : Lines} {l : Line}
    (h : (p.act a).level l ≠ p.level l) : ∃ v, a = some ⟨l, v⟩ := by
  rcases a with _ | ⟨k, v⟩
  · exact absurd rfl h
  · cases k <;> cases l
    case scl.scl | sda.sda => exact ⟨v, rfl⟩
    all_goals exact absurd rfl h

/-- Only STOP begins on the clock line (R110). -/
theorem action_zero_line {op : Opcode} {txb : Byte} {ackarg v : Bit} {l : Line}
    (h : action op 0 txb ackarg = some ⟨l, v⟩) : l = .scl ↔ op = .stop := by
  cases op <;> cases h <;> decide

theorem Block.accept_level_ne {i : Instr} {b : Block tSettle} {l : Line}
    (h : (b.accept i).lines.level l ≠ b.lines.level l) : l = .scl ↔ i.opcode = .stop := by
  rw [Block.accept_lines] at h
  obtain ⟨v, hact⟩ := Lines.exists_of_act_level_ne h
  exact action_zero_line hact

/-- At the end of a phase a line changes only if the next phase's action is on it (R110, R119). -/
theorem Block.phaseEnd_level_ne {x : PortIn} {n : BitVec 5} {b : Block tSettle} {l : Line}
    (h : ((b.takeSample x).beginPhase n).lines.level l ≠ b.lines.level l) :
    ∃ v, action b.op n.toNat b.txb b.ackarg = some ⟨l, v⟩ := by
  rw [Block.beginPhase_lines, Block.takeSample_lines] at h
  simpa using Lines.exists_of_act_level_ne h

theorem Block.accept_txb_ne {i : Instr} {b : Block tSettle} (h : (b.accept i).txb ≠ b.txb) :
    i.opcode = .send := by
  rw [Block.accept_txb] at h
  cases i
  case send => rfl
  all_goals exact absurd rfl h

theorem Block.accept_ackarg_ne {i : Instr} {b : Block tSettle} (h : (b.accept i).ackarg ≠ b.ackarg) :
    i.opcode = .read := by
  rw [Block.accept_ackarg] at h
  cases i
  case read => rfl
  all_goals exact absurd rfl h

theorem decode_opcode (op : BitVec 2) (arg : Byte) : (decode op arg).opcode = decodeOpcode op := by
  unfold decode
  cases decodeOpcode op <;> rfl

/-- The phases in which a READ samples, one by one (R111). -/
theorem mem_of_samples_read {n : Nat} (h : samples .read n = true) : n ∈ [1, 3, 5, 7, 9, 11, 13, 15] := by
  obtain ⟨hodd, hle⟩ : n % 2 = 1 ∧ n ≤ 15 := by simpa [samples] using h
  simp only [List.mem_cons, List.not_mem_nil]
  omega

theorem Block.takeSample_rxb_ne {x : PortIn} {b : Block tSettle} (h : (b.takeSample x).rxb ≠ b.rxb) :
    b.op = .read ∧ b.ph.toNat ∈ [1, 3, 5, 7, 9, 11, 13, 15] := by
  rw [Block.takeSample_rxb] at h
  obtain ⟨⟨hop, hsample⟩, _⟩ := ite_ne_right_iff.mp h
  exact ⟨hop, mem_of_samples_read (hop ▸ hsample)⟩

theorem Block.takeSample_nak_ne {x : PortIn} {b : Block tSettle} (h : (b.takeSample x).nak ≠ b.nak) :
    b.op = .send ∧ b.ph = 25 := by
  rw [Block.takeSample_nak] at h
  obtain ⟨⟨hop, hsample⟩, _⟩ := ite_ne_right_iff.mp h
  have hph : b.ph.toNat = 25 := by simpa [hop, samples] using hsample
  exact ⟨hop, BitVec.eq_of_toNat_eq hph⟩

theorem Block.endCommand_scl (b : Block tSettle) : b.endCommand.scl = b.scl :=
  congrArg Lines.scl b.endCommand_lines

theorem Block.endCommand_sda (b : Block tSettle) : b.endCommand.sda = b.sda :=
  congrArg Lines.sda b.endCommand_lines

/-- Outside the sampling phases `sda_in` is not read (R111, R112). -/
theorem Block.takeSample_of_not_samples {b : Block tSettle} (x : PortIn)
    (h : samples b.op b.ph.toNat = false) : b.takeSample x = b := by
  simp [Block.takeSample, h]

/-! ## The obligations -/

/-- Settles O25, by the invariants' lemma for each rule of R100. -/
theorem edgeKeepsInvariant : Obligations.EdgeKeepsInvariant :=
  fun _ x _ _ hinv => hinv.step x

/-- Settles O26: a step is a run of clock edges, each of which keeps the invariants. -/
theorem stepKeepsInvariant : Obligations.StepKeepsInvariant := by
  rintro ⟨reload, c⟩ s' hinv h
  obtain ⟨n, _, hstep⟩ := step_eq_clockEdges reload c
  cases hstep.symm.trans h
  exact BlockInv.clockEdges hinv n

/-- Settles O22: an edge reads `sda_in` only through the sample of a running command's phase end. -/
theorem dataLineReadOnlyWhenSampling : Obligations.DataLineReadOnlyWhenSampling := by
  intro t x v b h
  cases hs : b.st
  case idle => simp [Block.step, Block.idleEdge, hs]
  case halt => simp [Block.step, hs]
  case run =>
    by_cases hd : b.dly = 0
    · have hsample : samples b.op b.ph.toNat = false := by simpa [hs, hd] using h
      simp [Block.step, Block.runEdge, hs, Block.takeSample_of_not_samples _ hsample]
    · simp [Block.step, Block.runEdge, hs, show ¬b.dly = 0#_ from hd]

/-- Settles O23, by the rule that governs the edge: an edge that holds writes nothing, and each other rule writes
its own registers. -/
theorem registerWriters : Obligations.RegisterWriters := by
  intro t x b hr
  rcases b.step_cases x with ⟨hr', _⟩ | ⟨_, hs, hv, hstep⟩ | ⟨_, _, _, hstep⟩ | ⟨_, hs, hd, hstep⟩ |
    ⟨_, hs, hd, hp, hstep⟩ | ⟨_, hs, hd, hp, hstep⟩ | ⟨_, _, hstep⟩
  · simp [hr] at hr'
  · rw [hstep, ← decode_opcode x.cmdOp x.cmdArg]
    exact ⟨fun h => .inl ⟨hs, hv, (Block.accept_level_ne (l := .scl) h).mp rfl⟩,
      fun h => .inl ⟨hs, hv, fun hop => nomatch (Block.accept_level_ne (l := .sda) h).mpr hop⟩,
      fun _ => .inl ⟨hs, hv⟩, fun _ => ⟨hs, hv⟩, fun _ => .inl ⟨hs, hv⟩, fun _ => .inl ⟨hs, hv⟩,
      fun h => ⟨hs, hv, Block.accept_txb_ne h⟩, fun h => ⟨hs, hv, Block.accept_ackarg_ne h⟩,
      fun h => absurd (b.accept_rxb _) h, fun h => absurd (b.accept_nak _) h⟩
  · simp [hstep]
  · simp [hstep, hs, show ¬b.dly = 0#_ from hd]
  · rw [hstep]
    refine ⟨fun h => .inr ⟨hs, hd, hp, Block.phaseEnd_level_ne (l := .scl) h⟩,
      fun h => .inr ⟨hs, hd, hp, Block.phaseEnd_level_ne (l := .sda) h⟩, fun h => absurd (by simp) h,
      fun h => absurd (by simp) h, fun _ => .inr ⟨hs, hd, hp⟩, fun _ => .inr ⟨hs, .inr hp⟩,
      fun h => absurd (by simp) h, fun h => absurd (by simp) h, fun h => ?_, fun h => ?_⟩
    · obtain ⟨hop, hph⟩ := Block.takeSample_rxb_ne (by simpa using h)
      exact ⟨hs, hop, hd, hph⟩
    · obtain ⟨hop, hph⟩ := Block.takeSample_nak_ne (by simpa using h)
      exact ⟨hs, hop, hd, hph⟩
  · simp [hstep, hs, hd, hp, Block.endCommand_scl, Block.endCommand_sda]
  · simp [hstep]

/-- Settles O24: the rules that neither reset, accept nor begin a phase leave the line pair alone. -/
theorem linesChangeOnlyAtPhaseStart : Obligations.LinesChangeOnlyAtPhaseStart := by
  intro t x b h
  rcases b.step_cases x with ⟨hr, _⟩ | ⟨_, hs, hv, _⟩ | ⟨_, _, _, hstep⟩ | ⟨_, _, _, hstep⟩ |
    ⟨_, hs, hd, hp, _⟩ | ⟨_, _, _, _, hstep⟩ | ⟨_, _, hstep⟩
  · exact .inl hr
  · exact .inr (.inl ⟨hs, hv⟩)
  · exact absurd (congrArg Block.lines hstep) h
  · exact absurd (congrArg Block.lines hstep) h
  · exact .inr (.inr ⟨hs, hd, hp⟩)
  · exact absurd (hstep ▸ b.endCommand_lines) h
  · exact absurd (congrArg Block.lines hstep) h

/-- Settles O7: the reset values and the outputs they give (R33, R40). -/
theorem resetStateIsBusIdle : Obligations.ResetStateIsBusIdle := ⟨rfl, rfl, rfl, rfl, rfl, rfl⟩

/-- Settles O9: each output is read off one register, and `ready` and `halted` name two different values of `st`. -/
theorem outputFunctions : Obligations.OutputFunctions := by
  intro t b
  have hready : b.ready = true ↔ b.st = .idle := decide_eq_true_iff
  have hhalted : b.halted = true ↔ b.st = .halt := decide_eq_true_iff
  refine ⟨hready, hhalted, ?_, fun hs => ?_, rfl, rfl, rfl⟩
  · rw [hready, hhalted]
    rintro ⟨hidle, hhalt⟩
    exact nomatch hidle.symm.trans hhalt
  · simp [Block.ready, Block.halted, hs]

/-- Settles O27: the reset block meets the invariants, whatever the parameter and the environment. -/
theorem resetMeetsInvariant : Obligations.ResetMeetsInvariant := ⟨.reset, fun _ _ => .reset⟩

end Sys2Proof.Machine
end

section
/-! PROOFS. The memory family: the samples a READ assembles at the operation level, and the data line of a SEND
while the clock is high (R62, R114, R140, R150). -/

namespace Sys2Proof.Machine

/-! ## The bits of a receive shift -/

theorem getLsbD_zext8 (v : Bit) (j : Nat) : (zext8 v).getLsbD j = (decide (j = 0) && v) := by
  cases v <;> simp [zext8, BitVec.getLsbD_one]

/-- A shift puts the new bit lowest and moves every old one up one place (R30). -/
theorem getLsbD_shiftIn_zero (b : Byte) (v : Bit) : (shiftIn b v).getLsbD 0 = v := by
  rw [shiftIn, BitVec.getLsbD_or, BitVec.getLsbD_shiftLeft, getLsbD_zext8]
  simp

theorem getLsbD_shiftIn_succ (b : Byte) (v : Bit) {j : Nat} (hj : j + 1 < 8) :
    (shiftIn b v).getLsbD (j + 1) = b.getLsbD j := by
  rw [shiftIn, BitVec.getLsbD_or, BitVec.getLsbD_shiftLeft, getLsbD_zext8]
  simp [hj]

/-- After shifting bits in, bit `j` is the one shifted in `j` shifts before the last, whatever was there before
(R114). -/
theorem getLsbD_foldl_shiftIn (f : Nat → Bit) (old : Byte) {n j : Nat} (hj : j < 8) (hn : j < n) :
    (((List.range n).map f).foldl shiftIn old).getLsbD j = f (n - 1 - j) := by
  induction n generalizing j with
  | zero => omega
  | succ n ih =>
    rw [List.range_succ, List.map_append, List.foldl_append, List.map_singleton, List.foldl_cons, List.foldl_nil]
    cases j with
    | zero => exact getLsbD_shiftIn_zero _ _
    | succ j =>
      rw [getLsbD_shiftIn_succ _ _ hj, ih (by omega) (by omega)]
      congr 1; omega

/-! ## What the phases of a command sample -/

section Phases
variable (op : Opcode) (txb : Byte) (ackarg : Bit) (peer : Nat → Bit) (r : OpRun) (n : Nat)

/-- Only a SEND's sample goes to `nak` (R31). -/
theorem OpRun.record_nak_of_ne_send (v : Bit) (h : op ≠ .send) : (r.record op v).nak = r.nak := by
  cases op
  case send => exact absurd rfl h
  all_goals rfl

/-- Each sampling phase draws one of the peer's bits (R111). -/
theorem opPhase_drawn :
    (opPhase op txb ackarg peer r n).drawn = r.drawn + if samples op n then 1 else 0 := by
  cases h : samples op n
  case false => simp [opPhase, h]
  case true => cases op <;> simp_all [opPhase, OpRun.record, samples]

theorem opPhase_nak_of_ne_send (h : op ≠ .send) : (opPhase op txb ackarg peer r n).nak = r.nak := by
  unfold opPhase
  split
  · exact OpRun.record_nak_of_ne_send op _ _ h
  · rfl

/-- The samples drawn are the sampling phases passed (R111, R116). -/
theorem opPhases_drawn :
    (opPhases op txb ackarg peer r n).drawn = r.drawn + (List.range n).countP (samples op) := by
  induction n with
  | zero => rfl
  | succ n ih => simp [opPhases, opPhase_drawn, ih, List.range_succ, List.countP_cons, Nat.add_assoc]

theorem opPhases_nak_of_ne_send (h : op ≠ .send) : (opPhases op txb ackarg peer r n).nak = r.nak := by
  induction n with
  | zero => rfl
  | succ n ih => rw [opPhases, opPhase_nak_of_ne_send op _ _ _ _ _ h, ih]

/-- In a sampling phase the data line is released, so READ shifts in the peer's own bit (R23, R41 item 4). -/
theorem opPhases_succ_rxb_read (h : samples .read n = true) :
    (opPhases .read txb ackarg peer r (n + 1)).rxb =
      shiftIn (opPhases .read txb ackarg peer r n).rxb (peer (opPhases .read txb ackarg peer r n).drawn) := by
  have hlines := opPhases_lines .read txb ackarg peer r n
  rw [opPhases, opPhase_lines, linesThrough_sampling h] at hlines
  simp [opPhases, opPhase, h, hlines, OpRun.record, wiredAnd]

/-- READ's `rxb` has taken in, in order, the samples drawn so far (R116). -/
theorem opPhases_rxb_read :
    (opPhases .read txb ackarg peer r n).rxb =
      ((List.range ((List.range n).countP (samples .read))).map fun j => peer (r.drawn + j)).foldl shiftIn r.rxb := by
  induction n with
  | zero => rfl
  | succ n ih =>
    cases h : samples .read n
    case false =>
      rw [opPhases, (opPhase_of_not_samples _ _ _ _ _ _ h).1, ih]
      simp [List.range_succ, h]
    case true =>
      rw [opPhases_succ_rxb_read _ _ _ _ _ h, opPhases_drawn, ih]
      simp [List.range_succ, h]

end Phases

/-- A READ is its twenty phases, and no READ halts (R116, R150). -/
theorem opCommand_read (ack : Bit) (peer : Nat → Bit) (r : OpRun) :
    opCommand (.read ack) peer r = (.done, opPhases .read 0 ack peer r 20) := rfl

/-! ## The phases of a SEND on the wire -/

/-- The pair of a phase is some pair acted on by the phase's own action. -/
theorem exists_linesThrough_eq_act (op : Opcode) (txb : Byte) (ackarg : Bit) (p : Lines) (n : Nat) :
    ∃ q : Lines, linesThrough op txb ackarg p n = q.act (action op n txb ackarg) := by
  cases n with
  | zero => exact ⟨p, rfl⟩
  | succ n => exact ⟨linesThrough op txb ackarg p n, rfl⟩

/-- A phase leaves the line it drives at the level it drives. -/
theorem linesThrough_level_of_action {op : Opcode} {txb : Byte} {ackarg v : Bit} {n : Nat} {l : Line}
    (p : Lines) (h : action op n txb ackarg = some ⟨l, v⟩) : (linesThrough op txb ackarg p n).level l = v := by
  obtain ⟨q, hq⟩ := exists_linesThrough_eq_act op txb ackarg p n
  rw [hq, h]
  cases l <;> rfl

section Send
variable (txb : Byte) (ackarg : Bit)

/-- The three phases of bit `k` of a SEND (R110). -/
theorem action_send_data {k : Nat} (hk : k < 8) :
    action .send (3 * k) txb ackarg = driveSda (sendBit txb k) := by
  simp [action, sendAction, show 3 * k < 24 by omega]

theorem action_send_rise {k : Nat} (hk : k < 8) : action .send (3 * k + 1) txb ackarg = driveScl true := by
  simp [action, sendAction, show 3 * k + 1 < 24 by omega]

theorem action_send_fall {k : Nat} (hk : k < 8) : action .send (3 * k + 2) txb ackarg = driveScl false := by
  simp [action, sendAction, show 3 * k + 2 < 24 by omega]

/-- A SEND drives the data line only in the first phase of a bit and of the acknowledgment (R110). -/
theorem phase_of_action_send_sda {n : Nat} {v : Bit} (h : action .send n txb ackarg = some ⟨.sda, v⟩) :
    n % 3 = 0 ∧ n ≤ 24 := by
  simp only [action, sendAction, driveScl, driveSda] at h
  split at h
  case isTrue hlt =>
    split at h
    case h_1 hmod => exact ⟨hmod, hlt.le⟩
    all_goals simp at h
  case isFalse =>
    split_ifs at h with h24
    case pos => simp [h24]
    all_goals simp at h

/-- After its first phase a SEND drives the data line only right after a phase that drove the clock low (R140). -/
theorem action_send_of_sda_succ {n : Nat} {v : Bit} (h : action .send (n + 1) txb ackarg = some ⟨.sda, v⟩) :
    action .send n txb ackarg = driveScl false := by
  obtain ⟨hmod, hle⟩ := phase_of_action_send_sda txb ackarg h
  obtain ⟨k, rfl⟩ : ∃ k, n = 3 * k + 2 := ⟨n / 3, by omega⟩
  exact action_send_fall txb ackarg (by omega)

end Send

/-! ## Edges of a trace -/

/-- A trace given phase by phase keeps a relation at every edge when it does so between successive phases. -/
theorem everyEdge_map_range {rel : Lines → Lines → Prop} {f : Nat → Lines} {p : Lines} (n : Nat) (h0 : rel p (f 0))
    (hsucc : ∀ i, rel (f i) (f (i + 1))) : everyEdge rel p ((List.range n).map f) := by
  induction n generalizing p f with
  | zero => trivial
  | succ n ih =>
    rw [List.range_succ_eq_map, List.map_cons, List.map_map]
    exact ⟨h0, ih (hsucc 0) fun i => hsucc (i + 1)⟩

/-- An action keeps the data line stable unless it drives that line, which it may do while the clock is low. -/
theorem dataStable_act {a : Option LineAction} {p : Lines} (h : ∀ v, a = some ⟨.sda, v⟩ → p.scl = false) :
    dataStable p (p.act a) := by
  intro hne
  obtain ⟨v, rfl⟩ := Lines.exists_of_act_level_ne (l := .sda) hne.symm
  exact ⟨h v rfl, h v rfl⟩

/-! ## The obligations -/

/-- Settles O47: no sample of a READ reaches `nak`, and its eight samples replace the byte bit by bit. -/
theorem readAssemblesMsbFirst : Obligations.ReadAssemblesMsbFirst := by
  intro ack peer r
  have hcount : (List.range 20).countP (samples .read) = 8 := by decide
  rw [opCommand_read]
  refine ⟨rfl, ?_, opPhases_nak_of_ne_send .read _ _ _ _ _ nofun, fun k hk => ?_⟩
  · rw [opPhases_drawn, hcount]
  · rw [opPhases_rxb_read, hcount, getLsbD_foldl_shiftIn _ _ (by omega) (by omega),
      show 8 - 1 - (7 - k) = k by omega]

/-- Settles O49: each phase that drives the data line begins with the clock low, and the data line of a clock pulse
is the one its bit's first phase drove. -/
theorem sendDataStableWhileClockHigh : Obligations.SendDataStableWhileClockHigh := by
  intro byte ackarg p hp
  refine ⟨everyEdge_map_range 27 (dataStable_act fun _ _ => hp) fun n => dataStable_act fun v hv => ?_,
    fun k hk => ?_, linesThrough_sampling rfl⟩
  · exact linesThrough_level_of_action p (action_send_of_sda_succ byte ackarg hv)
  · have hdata : (linesThrough .send byte ackarg p (3 * k)).sda = byte.getLsbD (7 - k) :=
      linesThrough_level_of_action p (action_send_data byte ackarg hk)
    rw [linesThrough, action_send_rise byte ackarg hk, ← hdata]
    rfl

end Sys2Proof.Machine
end

section
/-! PROOFS. The encoding family: the two fields of a command word and the round trips over them (R80 to R82, R84,
R86), and where the command ports are read at all (R83). -/

namespace Sys2Proof

/-! ## The fields of a word -/

@[simp] theorem opField_append (op : BitVec 2) (arg : Byte) : opField (op ++ arg) = op :=
  BitVec.extractLsb'_append_eq_left

@[simp] theorem argField_append (op : BitVec 2) (arg : Byte) : argField (op ++ arg) = arg :=
  BitVec.extractLsb'_append_eq_right

/-- A word is its two fields and nothing else (R80). -/
theorem opField_append_argField (w : CmdWord) : opField w ++ argField w = w := by
  rw [opField, argField, BitVec.extractLsb'_append_extractLsb'_eq_extractLsb' (by rfl)]
  exact BitVec.extractLsb'_eq_self

/-! ## The opcode map and its inverse (R81) -/

@[simp] theorem decodeOpcode_opcodeBits (o : Opcode) : decodeOpcode (opcodeBits o) = o := by
  cases o <;> rfl

@[simp] theorem opcodeBits_decodeOpcode (op : BitVec 2) : opcodeBits (decodeOpcode op) = op := by
  revert op; decide

/-- No two rows share a match value: its opcode field names the row. -/
theorem rowMatch_injective : Function.Injective rowMatch :=
  Function.LeftInverse.injective (g := fun w => decodeOpcode (opField w)) fun o => by cases o <;> rfl

/-- A word matches the row its opcode field names and no other. -/
theorem matchesRow_eq_true_iff (w : CmdWord) (o : Opcode) :
    matchesRow o w = true ↔ o = decodeOpcode (opField w) := by
  have hmasked : w &&& rowMask = rowMatch (decodeOpcode (opField w)) := by
    have h := Laws.EncodesRow.masked (decodeOpcode (opField w)) (argField w)
    rwa [opcodeBits_decodeOpcode, opField_append_argField] at h
  rw [matchesRow, decide_eq_true_iff, hmasked, rowMatch_injective.eq_iff, eq_comm]

/-! ## The operand field (R82, R84) -/

theorem decode_of_start {op : BitVec 2} (h : decodeOpcode op = .start) (arg : Byte) : decode op arg = .start := by
  simp [decode, h]

theorem decode_of_stop {op : BitVec 2} (h : decodeOpcode op = .stop) (arg : Byte) : decode op arg = .stop := by
  simp [decode, h]

theorem decode_of_send {op : BitVec 2} (h : decodeOpcode op = .send) (arg : Byte) :
    decode op arg = .send arg := by
  simp [decode, h]

theorem decode_of_read {op : BitVec 2} (h : decodeOpcode op = .read) (arg : Byte) :
    decode op arg = .read (arg.getLsbD 0) := by
  simp [decode, h]

/-- The two fields a command is encoded to decode to the command. -/
theorem decode_opcodeBits_argBits (i : Instr) : decode (opcodeBits i.opcode) (argBits i) = i := by
  have hop := decodeOpcode_opcodeBits i.opcode
  cases i with
  | start => exact decode_of_start hop _
  | stop => exact decode_of_stop hop _
  | send b => exact decode_of_send hop _
  | read a =>
    rw [decode_of_read hop]
    cases a <;> rfl

/-- Every row uses the whole opcode field, and of the operand field its own bits. -/
theorem append_and_usedBits (op : BitVec 2) (arg : Byte) (o : Opcode) :
    (op ++ arg) &&& usedBits o = op ++ (arg &&& argField (usedBits o)) := by
  have hmask : usedBits o = BitVec.allOnes 2 ++ argField (usedBits o) := by cases o <;> rfl
  rw [hmask, BitVec.and_append, BitVec.and_allOnes, argField_append]

/-- Encoding the operand of a decoded command clears the operand bits its row does not use. -/
theorem argBits_decode (op : BitVec 2) (arg : Byte) :
    argBits (decode op arg) = arg &&& argField (usedBits (decodeOpcode op)) := by
  cases h : decodeOpcode op with
  | start => rw [decode_of_start h]; exact BitVec.and_zero.symm
  | stop => rw [decode_of_stop h]; exact BitVec.and_zero.symm
  | send => rw [decode_of_send h]; exact BitVec.and_allOnes.symm
  | read =>
    rw [decode_of_read h]
    refine Eq.trans ?_ BitVec.and_one_eq_setWidth_ofBool_getLsbD.symm
    cases arg.getLsbD 0 <;> rfl

/-- The decoder accepts every number a command word can be (R81). -/
theorem decodeNat_toNat (w : CmdWord) : decodeNat w.toNat = .ok (decodeWord w) := by
  have hw : isCmdWord w.toNat = true := decide_eq_true w.isLt
  rw [decodeNat, if_pos hw, BitVec.ofNat_toNat, BitVec.setWidth_eq]

end Sys2Proof

namespace Sys2Proof.Machine

variable {tSettle : Nat}

/-! ## Which inputs an edge reads -/

/-- A sample reads `sda_in` and no other input (R105). -/
theorem Block.takeSample_congr {x y : PortIn} (h : x.sdaIn = y.sdaIn) (b : Block tSettle) :
    b.takeSample x = b.takeSample y := by
  simp only [Block.takeSample, sample, h]

/-- An edge reads `rst` and `sda_in`, and the command ports only in IDLE (R83, R100). -/
theorem Block.step_congr {x y : PortIn} {b : Block tSettle} (hrst : x.rst = y.rst) (hsda : x.sdaIn = y.sdaIn)
    (hidle : b.st = .idle → b.idleEdge x = b.idleEdge y) : b.step x = b.step y := by
  have hrun : b.runEdge x = b.runEdge y := by simp only [Block.runEdge, Block.takeSample_congr hsda]
  unfold Block.step
  cases hs : b.st with
  | idle => simp only [hrst, hidle hs]
  | run => simp only [hrst, hrun]
  | halt => simp only [hrst]

/-- In IDLE the operand port has no effect beyond the command it decodes to (R82, R102). -/
theorem Block.step_cmdArg_congr {x : PortIn} {a : Byte} (h : decode x.cmdOp a = decode x.cmdOp x.cmdArg)
    (b : Block tSettle) : b.step { x with cmdArg := a } = b.step x :=
  Block.step_congr rfl rfl fun _ => by simp only [Block.idleEdge, h]

/-! ## The obligations -/

/-- Settles O1: the two fields come back out of the word, and they decode to the command. -/
theorem decodeEncodeRoundTrip : Obligations.DecodeEncodeRoundTrip := by
  intro i
  rw [decodeWord, encode, opField_append, argField_append, decode_opcodeBits_argBits]

/-- Settles O21: outside IDLE an edge reads no command port. -/
theorem busyBlockIgnoresCommands : Obligations.BusyBlockIgnoresCommands :=
  fun _ _ _ _ hs hrst hsda => Block.step_congr hrst hsda fun hidle => absurd hidle hs

/-- Settles O2: the mask keeps the opcode field, and of the operand field what encoding the operand keeps. -/
theorem encodeDecodeClearsIgnoredBits : Obligations.EncodeDecodeClearsIgnoredBits := by
  intro w
  rw [decodeWord, encode, decode_opcode, opcodeBits_decodeOpcode, argBits_decode, ← append_and_usedBits,
    opField_append_argField]

/-- Settles O3: the masked bits of a word are its opcode field. -/
theorem everyWordMatchesOneRow : Obligations.EveryWordMatchesOneRow := by
  intro w o
  rw [decodeWord, decode_opcode, matchesRow_eq_true_iff]

/-- Settles O4: the ignored operand bits do not reach the decoded command, which is all an edge reads of them. -/
theorem ignoredOperandBits : Obligations.IgnoredOperandBits := by
  refine ⟨fun t b x a => ⟨fun hframe => ?_, fun hread hbit => ?_⟩, fun w => ⟨decodeWord w, decodeNat_toNat w⟩⟩
  · rcases hframe with hstart | hstop
    · exact Block.step_cmdArg_congr (by rw [decode_of_start hstart, decode_of_start hstart]) b
    · exact Block.step_cmdArg_congr (by rw [decode_of_stop hstop, decode_of_stop hstop]) b
  · exact Block.step_cmdArg_congr (by rw [decode_of_read hread, decode_of_read hread, hbit]) b

/-- Settles O5: the twelve words, evaluated. -/
theorem specWordsDecode : Obligations.SpecWordsDecode := by
  unfold Obligations.SpecWordsDecode
  decide

/-- Settles O30, by the two cases of a step: an accepted command's is its `exec`. -/
theorem stepRunsDecodedCommand : Obligations.StepRunsDecodedCommand := by
  intro reload c
  rcases step_cases reload c with ⟨hrst, hs, hv, hstep⟩ | ⟨hnone, hstep⟩
  · exact ⟨fun _ _ _ => by rw [hstep, exec_eq]; rfl, fun hnone => absurd ⟨hrst, hs, hv⟩ hnone⟩
  · exact ⟨fun hrst hs hv => absurd ⟨hrst, hs, hv⟩ hnone, fun _ => hstep⟩

/-- Settles O31: `perform` leaves a circuit whose block is not ready as it is. -/
theorem busyCommandTurnedAway : Obligations.BusyCommandTurnedAway := by
  intro i reload c hs
  rw [exec_eq, Circuit.perform_of_not_ready hs]

end Sys2Proof.Machine
end

section
/-! PROOFS. The sequencer family: the rules of one edge, the timetable of a whole command, and its agreement with
the untimed operation (R100 to R119). -/

namespace Sys2Proof.Machine

variable {tSettle : Nat}

/-! ## The phase tables -/

/-- The two phases of clock pulse `k` of a READ (R110). -/
theorem action_read_rise (txb : Byte) (ackarg : Bit) {k : Nat} (hk : k < 8) :
    action .read (1 + 2 * k) txb ackarg = driveScl true := by
  have hodd : (1 + 2 * k) % 2 = 1 := by omega
  simp [action, readAction, hodd, show 1 + 2 * k ≤ 16 by omega]

theorem action_read_fall (txb : Byte) (ackarg : Bit) {k : Nat} (hk : k < 8) :
    action .read (2 + 2 * k) txb ackarg = driveScl false := by
  have heven : (2 + 2 * k) % 2 = 0 := by omega
  simp [action, readAction, heven, show 2 + 2 * k ≤ 16 by omega]

theorem samples_read_iff (n : Nat) : samples .read n = true ↔ n ∈ [1, 3, 5, 7, 9, 11, 13, 15] := by
  refine ⟨mem_of_samples_read, fun h => ?_⟩
  simp only [List.mem_cons, List.not_mem_nil, or_false] at h
  simp only [samples, Bool.and_eq_true, decide_eq_true_eq]
  omega

/-- The sampling phases of every command (R111). -/
theorem samples_iff (op : Opcode) (n : Nat) : samples op n = true ↔
    (op = .send ∧ n = 25) ∨ (op = .read ∧ n ∈ [1, 3, 5, 7, 9, 11, 13, 15]) := by
  cases op
  case start | stop => simp [samples]
  case send => simp [samples]
  case read => rw [samples_read_iff]; simp

/-- A sampling phase releases the clock line (R111). -/
theorem action_of_samples {op : Opcode} {n : Nat} (h : samples op n = true) (txb : Byte) (ackarg : Bit) :
    action op n txb ackarg = driveScl true := by
  cases op
  case start | stop => cases h
  case send =>
    obtain rfl : n = 25 := by simpa [samples] using h
    rfl
  case read =>
    obtain ⟨hodd, hle⟩ : n % 2 = 1 ∧ n ≤ 15 := by simpa [samples] using h
    obtain ⟨k, rfl⟩ : ∃ k, n = 1 + 2 * k := ⟨n / 2, by omega⟩
    exact action_read_rise txb ackarg (by omega)

theorem lt_lastPhase_of_samples {op : Opcode} {n : Nat} (h : samples op n = true) : n < lastPhase op := by
  cases op
  case start | stop => cases h
  case send =>
    obtain rfl : n = 25 := by simpa [samples] using h
    decide
  case read =>
    obtain ⟨_, hle⟩ : n % 2 = 1 ∧ n ≤ 15 := by simpa [samples] using h
    exact Nat.lt_of_le_of_lt hle (by decide)

/-- A sampling phase is the one its sample's number names: the sampling phases before it are counted off (R111). -/
theorem samplePhase_countP {op : Opcode} {n : Nat} (h : samples op n = true) :
    samplePhase op ((List.range n).countP (samples op)) = n := by
  cases op
  case start | stop => cases h
  case send =>
    obtain rfl : n = 25 := by simpa [samples] using h
    rfl
  case read =>
    have hn := mem_of_samples_read h
    fin_cases hn <;> rfl

/-! ## Receive shifts as numbers -/

/-- A shift doubles the byte, adds the new bit and drops the carry (R30). -/
theorem toNat_shiftIn (b : Byte) (v : Bit) : (shiftIn b v).toNat = Nat.bit v b.toNat % 256 := by
  have hdisjoint : b <<< 1 &&& zext8 v = 0#8 := by
    refine BitVec.eq_of_getLsbD_eq fun j _ => ?_
    rw [BitVec.getLsbD_and, BitVec.getLsbD_shiftLeft, getLsbD_zext8]
    cases j <;> simp
  have hv : (zext8 v).toNat = v.toNat := by cases v <;> rfl
  rw [shiftIn, ← BitVec.add_eq_or_of_and_eq_zero _ _ hdisjoint, BitVec.toNat_add, BitVec.toNat_shiftLeft, hv,
    Nat.bit_val, Nat.shiftLeft_eq]
  omega

/-- Any number of shifts is the same sum, cut to eight bits once (R114). -/
theorem toNat_foldl_shiftIn (vs : List Bit) (b : Byte) :
    (vs.foldl shiftIn b).toNat = vs.foldl (fun n v => Nat.bit v n) b.toNat % 256 := by
  induction vs using List.reverseRecOn with
  | nil => exact (Nat.mod_eq_of_lt b.isLt).symm
  | append_singleton vs v ih =>
    simp only [List.foldl_append, List.foldl_cons, List.foldl_nil, toNat_shiftIn, ih, Nat.bit_val]
    omega

/-! ## Edges of an idle block, and edges that hold any block -/

/-- A block that each edge would leave as it is, is left as it is by all of them. -/
theorem Circuit.clockEdges_block_of_fixed {n : Nat} {c : Circuit tSettle}
    (h : ∀ k < n, c.block.step ((c.stimulusAt k).ports c.block.sda) = c.block) :
    (c.clockEdges n).block = c.block := by
  induction n with
  | zero => rfl
  | succ n ih =>
    have hblock := ih fun k hk => h k (Nat.lt_succ_of_lt hk)
    rw [Circuit.clockEdges_succ, Circuit.clockEdge_block, Circuit.clockEdges_stimulusAt, hblock]
    exact h n (Nat.lt_succ_self n)

theorem Block.step_of_idle {x : PortIn} {b : Block tSettle} (hr : x.rst = false) (hs : b.st = .idle)
    (hv : x.cmdValid = false) : b.step x = b := by
  simp [Block.step, Block.idleEdge, hr, hs, hv]

theorem Block.step_of_offer {x : PortIn} {b : Block tSettle} (hr : x.rst = false) (hs : b.st = .idle)
    (hv : x.cmdValid = true) : b.step x = b.accept (decode x.cmdOp x.cmdArg) := by
  simp [Block.step, Block.idleEdge, hr, hs, hv]

/-! ## The timetable -/

/-- The delay counter `m` cycles after it is loaded (R104, R115). -/
theorem toNat_loadValue_sub {t m : Nat} (hm : m ≤ t - 1) :
    (loadValue t - BitVec.ofNat _ m).toNat = t - 1 - m := by
  have hcut : (BitVec.ofNat (Config.wDly t) m).toNat = m := by
    have hload := (loadValue t).isLt
    rw [loadValue_toNat] at hload
    rw [BitVec.toNat_ofNat]
    exact Nat.mod_eq_of_lt (Nat.lt_of_le_of_lt hm hload)
  rw [BitVec.toNat_sub_of_le (by rw [BitVec.le_def, hcut, loadValue_toNat]; exact hm), hcut, loadValue_toNat]

section Timetable
variable (i : Instr) (c : Circuit tSettle)

/-- A cycle of a command lies in one of the command's phases. -/
theorem div_le_lastPhase_of_lt_busyCycles {op : Opcode} {n : Nat} (hn : n < busyCycles op tSettle) :
    n / tSettle ≤ lastPhase op :=
  Nat.lt_succ_iff.mp (Nat.div_lt_of_lt_mul (Nat.mul_comm _ tSettle ▸ hn))

/-- The block `n` cycles after acceptance: in phase `n / T_SETTLE`, with the delay run down since (R115, R119). -/
theorem Circuit.clockEdges_acceptEdge_block (ht : 1 ≤ tSettle) {n : Nat} (hn : n < busyCycles i.opcode tSettle)
    (hr : c.noReset n) :
    ((c.acceptEdge i).clockEdges n).block =
      { c.phaseBlock i (n / tSettle) with dly := loadValue tSettle - BitVec.ofNat _ (n % tSettle) } := by
  have hsplit : n / tSettle * tSettle + n % tSettle = n := Nat.div_add_mod' n tSettle
  have hphase := Circuit.clockEdges_in_phase ht i c (div_le_lastPhase_of_lt_busyCycles hn)
    (Nat.le_sub_one_of_lt (Nat.mod_lt n ht)) (by rwa [hsplit])
  rw [hsplit] at hphase
  rw [hphase]

theorem Circuit.clockEdges_acceptEdge_st (ht : 1 ≤ tSettle) {n : Nat} (hn : n < busyCycles i.opcode tSettle)
    (hr : c.noReset n) : ((c.acceptEdge i).clockEdges n).block.st = .run := by
  rw [c.clockEdges_acceptEdge_block i ht hn hr]; exact c.phaseBlock_st i _

/-- `busyCycles` cycles after acceptance the last phase has ended the command (R107, R115). -/
theorem Circuit.clockEdges_busyCycles_block (ht : 1 ≤ tSettle) (hr : c.noReset (busyCycles i.opcode tSettle)) :
    ((c.acceptEdge i).clockEdges (busyCycles i.opcode tSettle)).block =
      { c.phaseBlock i (lastPhase i.opcode) with dly := 0 }.endCommand := by
  have hbusy : busyCycles i.opcode tSettle = lastPhase i.opcode * tSettle + (tSettle - 1) + 1 := by
    rw [busyCycles, Nat.succ_mul]; omega
  rw [hbusy] at hr ⊢
  have hlast := congrArg Circuit.block (Circuit.clockEdges_in_phase ht i c le_rfl le_rfl
    (Circuit.noReset_mono hr (Nat.le_succ _)))
  rw [show BitVec.ofNat _ (tSettle - 1) = loadValue tSettle from rfl, sub_self] at hlast
  rw [Circuit.clockEdges_succ, Circuit.clockEdge_block, hlast, Circuit.clockEdges_stimulusAt]
  refine Block.step_of_lastEnd (hr _ (Nat.lt_succ_self _)) (c.phaseBlock_st i _) rfl ?_
  simpa using c.phaseBlock_ph_toNat i _ le_rfl

end Timetable

/-! ## The untimed operation -/

section Operation
variable (op : Opcode) (txb : Byte) (ackarg : Bit) (peer : Nat → Bit) (r : OpRun) (n : Nat)

/-- What a phase of the untimed operation writes to `nak` and `rxb`: its sample, as an edge does (R105, R116). -/
theorem opPhase_nak : (opPhase op txb ackarg peer r n).nak =
    if op = .send ∧ samples op n = true then
      wiredAnd (opPhase op txb ackarg peer r n).lines.sda (peer r.drawn) else r.nak := by
  rw [opPhase_lines, opPhase]
  split
  case isTrue h => cases op <;> simp [OpRun.record, h]
  case isFalse h => simp [h]

theorem opPhase_rxb : (opPhase op txb ackarg peer r n).rxb =
    if op = .read ∧ samples op n = true then
      shiftIn r.rxb (wiredAnd (opPhase op txb ackarg peer r n).lines.sda (peer r.drawn)) else r.rxb := by
  rw [opPhase_lines, opPhase]
  split
  case isTrue h => cases op <;> simp [OpRun.record, h]
  case isFalse h => simp [h]

end Operation

/-- A SEND's `nak` ends as its one sample, the peer's bit while the data line is released (R140, R141). -/
theorem opRun_send_nak (txb : Byte) (ackarg : Bit) (peer : Nat → Bit) (r : OpRun) :
    (opRun .send txb ackarg peer r).nak = peer r.drawn := by
  have hlines : (opPhases .send txb ackarg peer r 26).lines = ⟨true, true⟩ :=
    (opPhases_lines ..).trans (linesThrough_sampling rfl)
  have hdrawn : (opPhases .send txb ackarg peer r 25).drawn = r.drawn := opPhases_drawn ..
  have hsample := opPhase_nak .send txb ackarg peer (opPhases .send txb ackarg peer r 25) 25
  rw [← opPhases, hlines, hdrawn, if_pos ⟨rfl, rfl⟩] at hsample
  obtain ⟨_, hlast, _⟩ := opPhase_of_not_samples .send txb ackarg peer (opPhases .send txb ackarg peer r 26) 26 rfl
  exact hlast.trans hsample

/-- An unacknowledged SEND halts (R141, R160). -/
theorem opCommand_send_of_nak {byte : Byte} {peer : Nat → Bit} {r : OpRun} (h : peer r.drawn = true) :
    (opCommand (.send byte) peer r).1 = .halt := by
  have hnak : (opRun .send byte false peer r).nak = true := (opRun_send_nak ..).trans h
  exact if_pos ⟨rfl, hnak⟩

/-- A run whose first commands all complete goes on with the rest, from the state they leave (R116). -/
theorem opProgram_append {peer : Nat → Bit} {before : Program} {r r' : OpRun}
    (h : opProgram peer before r = (.done, r')) (rest : Program) :
    opProgram peer (before ++ rest) r = opProgram peer rest r' := by
  induction before generalizing r with
  | nil => cases h; rfl
  | cons i is ih =>
    rw [List.cons_append, opProgram]
    rw [opProgram] at h
    split at h
    case h_1 => cases h
    case h_2 => exact ih h

/-! ## The two levels agree phase by phase -/

section Refinement
variable (i : Instr) (c : Circuit tSettle)

/-- The untimed operation on the registers of `c`, through the first `n` phases, its samples the peer's bits at the
ends of the sampling phases (R112, R116). -/
def Circuit.opPhasesFrom (n : Nat) : OpRun :=
  opPhases i.opcode (c.block.latch i).txb (c.block.latch i).ackarg (c.peerSample i.opcode)
    ⟨c.block.lines, c.block.rxb, c.block.nak, 0, []⟩ n

/-- The operation `exec` of R116 is all phases of the command, and the outcome its `nak` gives. -/
theorem Circuit.opExec_eq :
    opExec i.opcode (c.block.latch i).txb (c.block.latch i).ackarg c.block.lines c.block.rxb c.block.nak
        (c.peerSample i.opcode) =
      (opOutcome i.opcode (c.opPhasesFrom i (lastPhase i.opcode + 1)).nak,
        c.opPhasesFrom i (lastPhase i.opcode + 1)) := rfl

theorem Circuit.opPhasesFrom_lines (n : Nat) : (c.opPhasesFrom i (n + 1)).lines =
    linesThrough i.opcode (c.block.latch i).txb (c.block.latch i).ackarg c.block.lines n :=
  opPhases_lines ..

theorem Circuit.opPhasesFrom_succ_rxb (n : Nat) : (c.opPhasesFrom i (n + 1)).rxb =
    if i.opcode = .read ∧ samples i.opcode n = true then
      shiftIn (c.opPhasesFrom i n).rxb
        (wiredAnd (c.opPhasesFrom i (n + 1)).lines.sda (c.peerSample i.opcode (c.opPhasesFrom i n).drawn))
    else (c.opPhasesFrom i n).rxb :=
  opPhase_rxb ..

theorem Circuit.opPhasesFrom_succ_nak (n : Nat) : (c.opPhasesFrom i (n + 1)).nak =
    if i.opcode = .send ∧ samples i.opcode n = true then
      wiredAnd (c.opPhasesFrom i (n + 1)).lines.sda (c.peerSample i.opcode (c.opPhasesFrom i n).drawn)
    else (c.opPhasesFrom i n).nak :=
  opPhase_nak ..

/-- In a sampling phase both levels sample the same bit (R112). -/
theorem Circuit.peerSample_drawn {n : Nat} (h : samples i.opcode n = true) :
    c.peerSample i.opcode (c.opPhasesFrom i n).drawn = c.peerAtPhaseEnd n := by
  rw [Circuit.peerSample, Circuit.opPhasesFrom, opPhases_drawn, Nat.zero_add, samplePhase_countP h]

/-- The value an edge samples at the end of phase `n` is the one the untimed phase `n` samples. -/
theorem Circuit.sample_phaseBlock {n : Nat} (hn : n ≤ lastPhase i.opcode) (h : samples i.opcode n = true) :
    sample ((c.stimulusAt ((n + 1) * tSettle - 1)).ports (c.phaseBlock i n).sda) =
      wiredAnd (c.opPhasesFrom i (n + 1)).lines.sda (c.peerSample i.opcode (c.opPhasesFrom i n).drawn) := by
  have hsda : (c.phaseBlock i n).sda = (c.opPhasesFrom i (n + 1)).lines.sda := by
    rw [c.opPhasesFrom_lines i n, ← c.phaseBlock_lines i n hn]; rfl
  rw [c.peerSample_drawn i h, ← hsda]
  rfl

/-- At the start of phase `n` the data registers are those of the untimed operation after `n` phases (R116). -/
theorem Circuit.phaseBlock_refines {n : Nat} (hn : n ≤ lastPhase i.opcode) :
    (c.phaseBlock i n).rxb = (c.opPhasesFrom i n).rxb ∧ (c.phaseBlock i n).nak = (c.opPhasesFrom i n).nak := by
  induction n with
  | zero => exact ⟨Block.accept_rxb .., Block.accept_nak ..⟩
  | succ n ih =>
    obtain ⟨hrxb, hnak⟩ := ih (Nat.le_of_succ_le hn)
    rw [Circuit.phaseBlock, Block.beginPhase_rxb, Block.beginPhase_nak, Block.takeSample_rxb, Block.takeSample_nak,
      Circuit.phaseBlock_op, c.phaseBlock_ph_toNat i n (Nat.le_of_succ_le hn), hrxb, hnak,
      c.opPhasesFrom_succ_rxb i n, c.opPhasesFrom_succ_nak i n]
    by_cases hsample : samples i.opcode n = true
    · rw [c.sample_phaseBlock i (Nat.le_of_succ_le hn) hsample]
      exact ⟨rfl, rfl⟩
    · simp [hsample]

/-- No command samples in its last phase, so at its end the data registers are the operation's results. -/
theorem Circuit.phaseBlock_lastPhase_refines :
    (c.phaseBlock i (lastPhase i.opcode)).rxb = (c.opPhasesFrom i (lastPhase i.opcode + 1)).rxb ∧
      (c.phaseBlock i (lastPhase i.opcode)).nak = (c.opPhasesFrom i (lastPhase i.opcode + 1)).nak := by
  simpa [c.opPhasesFrom_succ_rxb, c.opPhasesFrom_succ_nak, samples_lastPhase] using c.phaseBlock_refines i le_rfl

/-- The pairs on the wire are the operation's trace, each held for the settle delay (R118). -/
theorem Circuit.wireTrace_eq_flatMap :
    wireTrace i.opcode (c.block.latch i).txb (c.block.latch i).ackarg c.block.lines tSettle =
      (c.opPhasesFrom i (lastPhase i.opcode + 1)).trace.flatMap (List.replicate tSettle) := by
  rw [Circuit.opPhasesFrom, opPhases_trace, List.nil_append, List.flatMap_map, wireTrace]

end Refinement

/-- A command's end shows its outcome in `st` (R107, R116). -/
theorem Block.endCommand_st_eq_idle_iff (b : Block tSettle) :
    b.endCommand.st = .idle ↔ opOutcome b.op b.nak = .done := by
  rw [Block.endCommand_st, opOutcome]
  split <;> simp

theorem Block.endCommand_st_eq_halt_iff (b : Block tSettle) :
    b.endCommand.st = .halt ↔ opOutcome b.op b.nak = .halt := by
  rw [Block.endCommand_st, opOutcome]
  split <;> simp

/-! ## The obligations -/

/-- Settles O13: each of the edges is one that holds the block. -/
theorem idleHolds : Obligations.IdleHolds :=
  ⟨fun _ _ _ => Block.step_of_idle, fun _ _ _ hs h =>
    Circuit.clockEdges_block_of_fixed fun k hk => Block.step_of_idle (h k hk).1 hs (h k hk).2⟩

/-- Settles O16: the edge that ends a phase begins the next one, and outside IDLE no edge reads a command port. -/
theorem phaseEdge : Obligations.PhaseEdge := by
  intro t x b hr hs hd hp
  have hstep := Block.step_of_phaseEnd hr hs hd hp.ne
  have hsucc := ph_succ_toNat hp
  have hports : ∀ (v : Bit) (c : BitVec 2) (a : Byte),
      b.step { x with cmdValid := v, cmdOp := c, cmdArg := a } = b.step x :=
    fun _ _ _ => Block.step_congr rfl rfl fun hidle => nomatch hs.symm.trans hidle
  rw [hstep] at hports ⊢
  refine ⟨by rw [Block.beginPhase_ph, hsucc], by simp, ?_, by simpa using hs, by simp, by simp, by simp, hports⟩
  rw [Block.beginPhase_lines, hsucc]
  simp

/-- Settles O15: a sampling phase is not the last, so its end is a phase end, with the sample. -/
theorem sampleEdge : Obligations.SampleEdge := by
  refine ⟨samples_lastPhase, fun t x b hr hs hd hsample => ?_⟩
  have hp := lt_lastPhase_of_samples hsample
  obtain ⟨hph, hdly, hlines, hst, hop, htxb, hack, _⟩ := phaseEdge t x b hr hs hd hp
  refine ⟨fun hsend => ?_, fun hread => ?_, hph, hdly, hlines, hst, hop, htxb, hack⟩ <;>
    rw [Block.step_of_phaseEnd hr hs hd hp.ne, Block.beginPhase_nak, Block.beginPhase_rxb, Block.takeSample_nak,
      Block.takeSample_rxb]
  · exact ⟨if_pos ⟨hsend, hsample⟩, if_neg (by simp [hsend])⟩
  · exact ⟨if_pos ⟨hread, hsample⟩, if_neg (by simp [hread])⟩

/-- Settles O18: an edge without reset holds a halted block, and a halted block makes every step such an edge. -/
theorem haltHolds : Obligations.HaltHolds := by
  refine ⟨fun t x b hs => ⟨fun hr => Block.step_of_halt hr hs, fun hleft => ?_⟩, fun t n c hs hr => ?_,
    fun reload c hs hr => ?_⟩
  · by_contra hr
    exact hleft (by rw [Block.step_of_halt (by simpa using hr) hs, hs])
  · have hblock := Circuit.clockEdges_block_of_fixed fun k hk => Block.step_of_halt (hr k hk) hs
    rw [hblock]
    refine ⟨rfl, by simp [Block.ready, hs], by simp [Block.halted, hs], fun hinv => ?_⟩
    obtain ⟨_, _, _, hscl, hsda⟩ := hinv.halted hs
    exact ⟨hscl, hsda⟩
  · rcases step_cases reload c with ⟨_, hidle, _⟩ | ⟨_, hstep⟩
    · exact nomatch hs.symm.trans hidle
    · exact ⟨c.clockEdge, hstep, Block.step_of_halt hr hs⟩

/-- Settles O19, by the rule that governs the edge. -/
theorem sequencerTransitions : Obligations.SequencerTransitions := by
  intro t x b
  rcases b.step_cases x with ⟨hr, hstep⟩ | ⟨hr, hs, hv, hstep⟩ | ⟨hr, hs, hv, hstep⟩ |
    ⟨hr, hs, hd, hstep⟩ | ⟨hr, hs, hd, hp, hstep⟩ | ⟨hr, hs, hd, hp, hstep⟩ | ⟨hr, hs, hstep⟩ <;> rw [hstep]
  · simp [hr, Block.reset]
  · simp [hr, hs, hv]
  · simp [hr, hs, hv]
  · simp [hr, hs, show ¬b.dly = 0#_ from hd]
  · simp [hr, hs, hp]
  · simp [hr, hs, hd, hp, Block.endCommand_st]
  · simp [hr, hs]

/-- Settles O32: the accepting edge, and then an edge for each cycle in which the command is running. -/
theorem stepIsClockEdges : Obligations.StepIsClockEdges := by
  refine ⟨step_eq_clockEdges, fun reload c hs hv hr => ?_⟩
  rw [Nat.add_comm 1] at hr ⊢
  have hrst := Circuit.noReset_head hr
  have hr' : c.consume.noReset (busyCycles (decodeOpcode (c.stimulusAt 0).cmdOp) (reload + 1)) :=
    Circuit.noReset_clockEdge hr
  rw [← decode_opcode _ (c.stimulusAt 0).cmdArg] at hr' ⊢
  rcases step_cases reload c with ⟨_, _, _, hstep⟩ | ⟨hnone, _⟩
  · rw [hstep, Circuit.perform_of_ready (show c.consume.block.st = .idle from hs),
      Circuit.runBusy_eq_clockEdges fun k hk =>
        c.consume.clockEdges_acceptEdge_st _ (Nat.le_add_left 1 reload) hk (Circuit.noReset_mono hr' hk.le),
      Circuit.clockEdges, Circuit.clockEdge_of_offer hrst hs hv]
  · exact absurd ⟨hrst, hs, hv⟩ hnone

/-- Settles O40: both levels go through the same phases, and the last phase, which does not sample, decides the
outcome from the same `nak`. -/
theorem execRefinesOperation : Obligations.ExecRefinesOperation := by
  intro i reload c hs hr
  refine ⟨c.perform i, exec_eq i reload c, fun outcome r hexec => ?_⟩
  rw [c.opExec_eq i] at hexec
  obtain ⟨rfl, rfl⟩ := Prod.mk.inj hexec
  obtain ⟨hrxb, hnak⟩ := c.phaseBlock_lastPhase_refines i
  have hlines := c.phaseBlock_lines i _ le_rfl
  rw [Circuit.perform_eq (Nat.le_add_left 1 reload) i hs hr, Circuit.wireTrace_eq_flatMap,
    c.opPhasesFrom_lines i, ← hrxb, ← hnak]
  refine ⟨(Block.endCommand_lines _).trans hlines, Block.endCommand_rxb _, Block.endCommand_nak _, ?_, ?_, rfl⟩
  · rw [Block.endCommand_st_eq_idle_iff, Circuit.phaseBlock_op]
  · rw [Block.endCommand_st_eq_halt_iff, Circuit.phaseBlock_op]

/-- Settles O41: a cycle of the command by its phase, and the cycle after them by how the command ended. -/
theorem commandTimetable : Obligations.CommandTimetable := by
  intro t i c ht hr
  refine ⟨fun n hn => ?_, ?_⟩
  · have hphase := div_le_lastPhase_of_lt_busyCycles hn
    have hlines := c.phaseBlock_lines i _ hphase
    have hph := c.phaseBlock_ph_toNat i _ hphase
    rw [c.clockEdges_acceptEdge_block i ht hn (Circuit.noReset_mono hr hn.le)]
    refine ⟨by simp [Block.ready], by simp [Block.halted], hph, ?_, hlines⟩
    exact toNat_loadValue_sub (Nat.le_sub_one_of_lt (Nat.mod_lt n ht))
  · rw [c.clockEdges_busyCycles_block i ht hr]
    simp only [Block.ready, Block.halted, Block.endCommand_st, decide_eq_true_eq]
    split
    · exact .inr rfl
    · exact .inl rfl

/-- Settles O48: the eight shifts are one sum cut to eight bits, which the old byte is a multiple of 256 in. -/
theorem eightShiftsReplaceTheByte : Obligations.EightShiftsReplaceTheByte := by
  intro old s0 s1 s2 s3 s4 s5 s6 s7
  rw [toNat_foldl_shiftIn]
  simp only [List.foldl_cons, List.foldl_nil, Nat.bit_val]
  have := Bool.toNat_le s0
  have := Bool.toNat_le s1
  have := Bool.toNat_le s2
  have := Bool.toNat_le s3
  have := Bool.toNat_le s4
  have := Bool.toNat_le s5
  have := Bool.toNat_le s6
  have := Bool.toNat_le s7
  omega

/-- Settles O51: the run reaches the SEND in the state the commands before it leave, and the SEND halts. -/
theorem unacknowledgedSendEndsRun : Obligations.UnacknowledgedSendEndsRun := by
  intro peer before after byte r r' hbefore hsample
  have hsend : opCommand (.send byte) peer r' = (.halt, (opCommand (.send byte) peer r').2) :=
    Prod.ext (opCommand_send_of_nak hsample) rfl
  rw [opProgram_append hbefore, opProgram]
  split
  case h_1 hhalt => rw [hhalt]
  case h_2 hdone => exact nomatch congrArg Prod.fst (hsend.symm.trans hdone)

/-- Settles O6: reset comes before every other rule of an edge (R100). -/
theorem resetEdge : Obligations.ResetEdge := fun _ _ _ => Block.step_of_rst

/-- Settles O8: no command is accepted under reset, so the step is one edge, and that edge is a reset. -/
theorem machineResetStep : Obligations.MachineResetStep := by
  intro reload c hr
  rcases step_cases reload c with ⟨hr', _⟩ | ⟨_, hstep⟩
  · exact nomatch hr.symm.trans hr'
  · have hblock : c.block.step ((c.stimulusAt 0).ports c.block.sda) = Block.reset := Block.step_of_rst hr
    rw [hstep, Circuit.clockEdge, hblock]
    rfl

/-- Settles O10: the rows of one clock pulse by their lemmas, the single rows evaluated. -/
theorem phaseTables : Obligations.PhaseTables := by
  intro txb ackarg
  refine ⟨rfl, rfl, rfl, rfl, rfl, rfl, rfl, rfl,
    fun k hk => ⟨action_send_data txb ackarg hk, action_send_rise txb ackarg hk, action_send_fall txb ackarg hk⟩,
    rfl, rfl, rfl, rfl, fun k hk => ⟨action_read_rise txb ackarg hk, action_read_fall txb ackarg hk⟩,
    rfl, rfl, rfl, fun _ _ => ⟨rfl, rfl⟩, fun _ _ => rfl, rfl, fun k hk => ⟨?_, ?_⟩, rfl, rfl, rfl⟩
  · simp only [samples, Bool.and_eq_true, decide_eq_true_eq]
    omega
  · simp only [samples, Bool.and_eq_false_iff, decide_eq_false_iff_not]
    omega

/-- Settles O11: the sampling phases are counted over the two tables, and each is a clock rise. -/
theorem samplingPhases : Obligations.SamplingPhases :=
  ⟨samples_iff, by decide, by decide, fun _ _ txb ackarg h => action_of_samples h txb ackarg⟩

/-- Settles O12: the edge is an acceptance, whose first line action the opcode names. -/
theorem acceptanceEdge : Obligations.AcceptanceEdge := by
  intro t x b hr hs hv
  rw [Block.step_of_offer hr hs hv]
  refine ⟨by simp, ?_⟩
  cases hop : decodeOpcode x.cmdOp with
  | start => rw [decode_of_start hop]; rfl
  | stop => rw [decode_of_stop hop]; rfl
  | send => rw [decode_of_send hop]; rfl
  | read => rw [decode_of_read hop]; rfl

/-- Settles O14: the edge waits, and a counter that is not 0 does not borrow. -/
theorem delayEdge : Obligations.DelayEdge :=
  fun _ _ _ hr hs hd => ⟨Block.step_of_waiting hr hs hd, toNat_sub_one hd⟩

/-- Settles O17: the edge ends the command, which writes `st` alone. -/
theorem lastPhaseEdge : Obligations.LastPhaseEdge :=
  fun _ _ _ => Block.step_of_lastEnd

/-- Settles O29: a step is clock edges and a command is `perform`, and both answer a next state. -/
theorem stepNeverStops : Obligations.StepNeverStops := by
  refine ⟨fun ⟨reload, c⟩ => ?_, fun i ⟨reload, c⟩ => ⟨_, exec_eq i reload c⟩⟩
  obtain ⟨n, _, hstep⟩ := step_eq_clockEdges reload c
  exact ⟨_, hstep⟩

end Sys2Proof.Machine
end

section
/-! PROOFS. The framing family: the block each whole command ends with, what it leaves unchanged, and the final line
pairs (R107, R115, R130, R131, R140, R150). -/

namespace Sys2Proof.Machine

variable {tSettle : Nat}

/-! ## The block after a whole command -/

section Whole
variable (i : Instr) (c : Circuit tSettle)

/-- The block a command ends with, register by register: the line pair `p` of its last phase, the latched operands,
and `rxb` and `nak` as its samples left them (R107, R115). -/
theorem Circuit.endCommand_phaseBlock {p : Lines}
    (hp : linesThrough i.opcode (c.block.latch i).txb (c.block.latch i).ackarg c.block.lines (lastPhase i.opcode) = p) :
    ({ c.phaseBlock i (lastPhase i.opcode) with dly := 0 } : Block tSettle).endCommand =
      { scl := p.scl, sda := p.sda
        st := if i.opcode = .send ∧ (c.phaseBlock i (lastPhase i.opcode)).nak = true then .halt else .idle
        op := i.opcode, ph := BitVec.ofNat 5 (lastPhase i.opcode), dly := 0
        txb := (c.block.latch i).txb, ackarg := (c.block.latch i).ackarg
        rxb := (c.phaseBlock i (lastPhase i.opcode)).rxb, nak := (c.phaseBlock i (lastPhase i.opcode)).nak } := by
  have hlines := (c.phaseBlock_lines i _ le_rfl).trans hp
  apply Block.ext_lines
  case hl => exact (Block.endCommand_lines _).trans hlines
  case hst => simp [Block.endCommand_st]
  all_goals simp

/-- A whole command without reset leaves the block as it is, when it was not ready, or leaves it at the end of the
command's last phase (R83, R107). -/
theorem Circuit.perform_block_cases (ht : 1 ≤ tSettle) (hr : c.noReset (busyCycles i.opcode tSettle)) :
    (c.block.st ≠ .idle ∧ (c.perform i).block = c.block) ∨
    (c.block.st = .idle ∧
      (c.perform i).block = ({ c.phaseBlock i (lastPhase i.opcode) with dly := 0 } : Block tSettle).endCommand) := by
  by_cases hs : c.block.st = .idle
  · exact .inr ⟨hs, by rw [Circuit.perform_eq ht i hs hr]⟩
  · exact .inl ⟨hs, by rw [Circuit.perform_of_not_ready hs]⟩

end Whole

/-! ## The registers a command does not write -/

section Frame
variable {i : Instr}

theorem Block.latch_txb_of_ne_send (h : i.opcode ≠ .send) (b : Block tSettle) : (b.latch i).txb = b.txb := by
  rw [← Block.accept_txb]; exact not_imp_comm.mp Block.accept_txb_ne h

theorem Block.latch_ackarg_of_ne_read (h : i.opcode ≠ .read) (b : Block tSettle) :
    (b.latch i).ackarg = b.ackarg := by
  rw [← Block.accept_ackarg]; exact not_imp_comm.mp Block.accept_ackarg_ne h

theorem Circuit.phaseBlock_rxb_of_ne_read (h : i.opcode ≠ .read) (c : Circuit tSettle) :
    (c.phaseBlock i (lastPhase i.opcode)).rxb = c.block.rxb := by
  rw [c.phaseBlock_rxb i _ le_rfl, if_neg h]

theorem Circuit.phaseBlock_nak_of_ne_send (h : i.opcode ≠ .send) (c : Circuit tSettle) :
    (c.phaseBlock i (lastPhase i.opcode)).nak = c.block.nak := by
  rw [c.phaseBlock_nak i _ le_rfl, if_neg (h ·.1)]

variable {c : Circuit tSettle} (ht : 1 ≤ tSettle) (hr : c.noReset (busyCycles i.opcode tSettle))
include ht hr

/-- Only SEND writes `txb` and `nak` (R140), to a block that is ready or not. -/
theorem Circuit.perform_frame_of_ne_send (h : i.opcode ≠ .send) :
    (c.perform i).block.txb = c.block.txb ∧ (c.perform i).block.nak = c.block.nak := by
  rcases c.perform_block_cases i ht hr with ⟨_, hblock⟩ | ⟨_, hblock⟩ <;> rw [hblock]
  · exact ⟨rfl, rfl⟩
  · simp [Block.latch_txb_of_ne_send h, Circuit.phaseBlock_nak_of_ne_send h]

/-- Only READ writes `ackarg` and `rxb` (R150), to a block that is ready or not. -/
theorem Circuit.perform_frame_of_ne_read (h : i.opcode ≠ .read) :
    (c.perform i).block.ackarg = c.block.ackarg ∧ (c.perform i).block.rxb = c.block.rxb := by
  rcases c.perform_block_cases i ht hr with ⟨_, hblock⟩ | ⟨_, hblock⟩ <;> rw [hblock]
  · exact ⟨rfl, rfl⟩
  · simp [Block.latch_ackarg_of_ne_read h, Circuit.phaseBlock_rxb_of_ne_read h]

end Frame

/-! ## The framing commands -/

section Framing
variable {i : Instr} (hi : i = .start ∨ i = .stop)
include hi

theorem opcode_ne_of_framing : i.opcode ≠ .send ∧ i.opcode ≠ .read := by
  rcases hi with rfl | rfl <;> exact ⟨nofun, nofun⟩

theorem lastPhase_of_framing : lastPhase i.opcode = 1 := by
  rcases hi with rfl | rfl <;> rfl

/-- A framing command on a ready block, with the line pairs `p` and `q` of its two phases: each pair held for the
settle delay, then IDLE; besides the lines it writes only the sequencer's own registers (R130, R131). -/
theorem exec_of_framing {reload : Nat} {c : Circuit (reload + 1)} {p q : Lines}
    (hp : linesThrough i.opcode c.block.txb c.block.ackarg c.block.lines 0 = p)
    (hq : linesThrough i.opcode c.block.txb c.block.ackarg c.block.lines 1 = q)
    (hs : c.block.st = .idle) (hr : c.noReset (busyCycles i.opcode (reload + 1))) :
    exec i ⟨reload, c⟩ = .next
      ⟨reload, {
        block := { c.block with scl := q.scl, sda := q.sda, st := .idle, op := i.opcode, ph := 1, dly := 0 }
        inputs := c.inputs.drop (busyCycles i.opcode (reload + 1))
        cycle := c.cycle + busyCycles i.opcode (reload + 1)
        bus := c.bus ++ List.replicate (reload + 1) p ++ List.replicate (reload + 1) q ++ [q] }⟩ := by
  obtain ⟨hsend, hread⟩ := opcode_ne_of_framing hi
  rw [exec_eq, Circuit.perform_eq (Nat.le_add_left 1 reload) i hs hr, c.endCommand_phaseBlock i rfl,
    Circuit.phaseBlock_rxb_of_ne_read hread, Circuit.phaseBlock_nak_of_ne_send hsend,
    Block.latch_txb_of_ne_send hsend, Block.latch_ackarg_of_ne_read hread, wireTrace, lastPhase_of_framing hi, hq]
  simp [hsend, List.range_succ, hp, hq]

end Framing

/-! ## The operation level -/

/-- The lines an operation ends with are those of its last phase (R116). -/
theorem opCommand_lines (i : Instr) (peer : Nat → Bit) (r : OpRun) : (opCommand i peer r).2.lines =
    linesThrough i.opcode (opTxb i) (opAckarg i) r.lines (lastPhase i.opcode) :=
  opPhases_lines ..

/-! ## The obligations -/

/-- Settles O34: the framing command whose two actions drive the data line, then the clock line, low. -/
theorem startCompletes : Obligations.StartCompletes :=
  fun _ _ => exec_of_framing (.inl rfl) rfl rfl

/-- Settles O35: the framing command whose two actions release the clock line, then the data line. -/
theorem stopCompletes : Obligations.StopCompletes :=
  fun _ _ => exec_of_framing (.inr rfl) rfl rfl

/-- Settles O39: `txb` and `nak` are SEND's to write, `ackarg` and `rxb` READ's, and no command changes the
parameter. -/
theorem commandFrame : Obligations.CommandFrame := by
  intro i reload c s' hr h
  cases (exec_eq i reload c).symm.trans h
  have hsend := Circuit.perform_frame_of_ne_send (Nat.le_add_left 1 reload) hr
  have hread := Circuit.perform_frame_of_ne_read (Nat.le_add_left 1 reload) hr
  refine ⟨c.perform i, rfl, fun hi => ?_, ?_, ?_⟩
  · obtain ⟨hne_send, hne_read⟩ := opcode_ne_of_framing hi
    obtain ⟨htxb, hnak⟩ := hsend hne_send
    obtain ⟨hack, hrxb⟩ := hread hne_read
    exact ⟨htxb, hack, hrxb, hnak⟩
  · rintro byte rfl
    exact hread nofun
  · rintro ack rfl
    exact hsend nofun

/-- Settles O45: each command's final pair is that of its last phase, whatever pair it started with. -/
theorem finalLinePairs : Obligations.FinalLinePairs := fun peer r =>
  ⟨(opCommand_lines .start peer r).trans (linesThrough_start ..),
    (opCommand_lines .stop peer r).trans (linesThrough_stop ..),
    fun byte => (opCommand_lines (.send byte) peer r).trans (linesThrough_send ..),
    fun ack => (opCommand_lines (.read ack) peer r).trans (linesThrough_read ..)⟩

end Sys2Proof.Machine
end

section
/-! PROOFS. The SEND family: the state a whole SEND answers, as its one sample decides it, and the untimed SEND (R140,
R141, R160, R165). -/

namespace Sys2Proof.Machine

/-! ## The whole command -/

/-- SEND on a ready block: the peer's bit `v` in the last cycle of phase 25 goes to `nak` and chooses between IDLE
and HALT, and nothing else depends on it (R140, R141, R160, R165). -/
theorem exec_send {byte : Byte} {reload : Nat} {c : Circuit (reload + 1)} {v : Bit} (hs : c.block.st = .idle)
    (hr : c.noReset (27 * (reload + 1))) (hv : c.peerAtPhaseEnd 25 = v) :
    exec (.send byte) ⟨reload, c⟩ = .next
      ⟨reload, {
        block := { c.block with scl := false, sda := true, st := if v = true then .halt else .idle, op := .send,
                                ph := 26, dly := 0, txb := byte, nak := v }
        inputs := c.inputs.drop (27 * (reload + 1))
        cycle := c.cycle + 27 * (reload + 1)
        bus := c.bus ++ wireTrace .send byte c.block.ackarg c.block.lines (reload + 1) ++ [⟨false, true⟩] }⟩ := by
  have hlines := linesThrough_send byte c.block.ackarg c.block.lines
  have hnak : (c.phaseBlock (.send byte) 26).nak = v := (c.phaseBlock_nak (.send byte) 26 le_rfl).trans hv
  have hrxb : (c.phaseBlock (.send byte) 26).rxb = c.block.rxb :=
    Circuit.phaseBlock_rxb_of_ne_read (i := .send byte) nofun c
  rw [exec_eq, Circuit.perform_eq (Nat.le_add_left 1 reload) (.send byte) hs hr,
    c.endCommand_phaseBlock (.send byte) hlines]
  simp [Instr.opcode, lastPhase, Block.latch, busyCycles, hnak, hrxb, hlines]

/-! ## The untimed operation -/

section Operation
variable (peer : Nat → Bit) (r : OpRun)

/-- Only a READ shifts samples into `rxb` (R30, R116). -/
theorem opPhases_rxb_of_ne_read {op : Opcode} (h : op ≠ .read) (txb : Byte) (ackarg : Bit) (n : Nat) :
    (opPhases op txb ackarg peer r n).rxb = r.rxb := by
  induction n with
  | zero => rfl
  | succ n ih => rw [opPhases, opPhase_rxb, if_neg (h ·.1), ih]

/-- The trace of a command lists the pairs of its phases, which no sample is part of (R116). -/
theorem opCommand_trace (i : Instr) : (opCommand i peer r).2.trace =
    r.trace ++ (List.range (lastPhase i.opcode + 1)).map (linesThrough i.opcode (opTxb i) (opAckarg i) r.lines) :=
  opPhases_trace ..

/-- A SEND halts exactly when its one sample is 1 (R141, R160). -/
theorem opCommand_send_halt_iff (byte : Byte) :
    (opCommand (.send byte) peer r).1 = .halt ↔ peer r.drawn = true := by
  change opOutcome .send (opRun .send byte false peer r).nak = .halt ↔ _
  rw [opRun_send_nak, opOutcome]
  simp

end Operation

/-! ## The obligations -/

/-- Settles O36: the sample is 0, so the command completes. -/
theorem sendAcknowledgedCompletes : Obligations.SendAcknowledgedCompletes :=
  fun _ _ _ => exec_send

/-- Settles O37: the sample is 1, so the command ends in the halt. -/
theorem sendUnacknowledgedHalts : Obligations.SendUnacknowledgedHalts :=
  fun _ _ _ => exec_send

/-- Settles O46: the one sampling phase of a SEND writes `nak`, which decides the outcome; no phase of it writes `rxb`,
and its trace is that of the table's actions. -/
theorem acknowledgmentDecidesOutcome : Obligations.AcknowledgmentDecidesOutcome := fun byte peer r =>
  ⟨opCommand_send_halt_iff peer r byte, opPhases_drawn ..,
    opPhases_rxb_of_ne_read (op := .send) peer r nofun byte false 27,
    fun peer' => (opCommand_trace peer' r (.send byte)).trans (opCommand_trace peer r (.send byte)).symm⟩

end Sys2Proof.Machine
end

section
/-! PROOFS. The READ family: the byte a READ assembles, the state a whole READ answers, and both transfer commands
with no peer on the bus (R62, R141, R150, R151). -/

namespace Sys2Proof.Machine

variable {tSettle : Nat}

/-! ## The byte a READ assembles -/

/-- `rxb` after the eight samples of a READ that begins its first phase now (R30, R112, R150). -/
def Circuit.readByte (c : Circuit tSettle) : Byte :=
  ((List.range 8).map fun k => c.peerAtPhaseEnd (1 + 2 * k)).foldl shiftIn c.block.rxb

/-- The sampling phases of a READ in their order (R111). -/
theorem filter_samples_read : (List.range 19).filter (samples .read) = (List.range 8).map (1 + 2 * ·) := rfl

/-- A READ ends with the byte of its eight samples in `rxb` (R105, R150). -/
theorem Circuit.phaseBlock_read_rxb (ack : Bit) (c : Circuit tSettle) :
    (c.phaseBlock (.read ack) 19).rxb = c.readByte := by
  have hread : (Instr.read ack).opcode = .read := rfl
  rw [c.phaseBlock_rxb (.read ack) 19 le_rfl, if_pos hread, filter_samples_read, Circuit.readByte, List.foldl_map,
    List.foldl_map]

/-- The sample of clock pulse `k` is bit `7-k`, most significant first, whatever `rxb` held (R62, R114). -/
theorem Circuit.getLsbD_readByte (c : Circuit tSettle) {k : Nat} (hk : k < 8) :
    c.readByte.getLsbD (7 - k) = c.peerAtPhaseEnd (1 + 2 * k) := by
  have hpulse : 8 - 1 - (7 - k) = k := by omega
  rw [Circuit.readByte, getLsbD_foldl_shiftIn _ _ (by omega) (by omega), hpulse]

/-! ## The whole command -/

/-- READ on a ready block: twenty phases, IDLE, the samples in `rxb` and the operand on the data line; `txb` and `nak`
are not written (R115, R150). -/
theorem exec_read {ack : Bit} {reload : Nat} {c : Circuit (reload + 1)} (hs : c.block.st = .idle)
    (hr : c.noReset (20 * (reload + 1))) :
    exec (.read ack) ⟨reload, c⟩ = .next
      ⟨reload, {
        block := { c.block with scl := false, sda := !ack, st := .idle, op := .read, ph := 19, dly := 0,
                                ackarg := ack, rxb := c.readByte }
        inputs := c.inputs.drop (20 * (reload + 1))
        cycle := c.cycle + 20 * (reload + 1)
        bus := c.bus ++ wireTrace .read c.block.txb ack c.block.lines (reload + 1) ++ [⟨false, !ack⟩] }⟩ := by
  have hlines := linesThrough_read c.block.txb ack c.block.lines
  have hrxb := c.phaseBlock_read_rxb ack
  have hnak : (c.phaseBlock (.read ack) 19).nak = c.block.nak :=
    Circuit.phaseBlock_nak_of_ne_send (i := .read ack) nofun c
  rw [exec_eq, Circuit.perform_eq (Nat.le_add_left 1 reload) (.read ack) hs hr,
    c.endCommand_phaseBlock (.read ack) hlines]
  simp [Instr.opcode, lastPhase, Block.latch, busyCycles, hrxb, hnak, hlines]

/-! ## A peer that never changes its bit -/

section ConstantPeer
variable {c : Circuit tSettle} {n : Nat} {v : Bit} (ht : 1 ≤ tSettle)
  (hv : ∀ k < n * tSettle, (c.stimulusAt k).peerSda = v)
include ht hv

/-- The last cycle of each of the first `n` phases is one of their `n * T_SETTLE` cycles (R115). -/
theorem Circuit.peerAtPhaseEnd_of_constant {ph : Nat} (hph : ph < n) : c.peerAtPhaseEnd ph = v := by
  have hend : (ph + 1) * tSettle ≤ n * tSettle := Nat.mul_le_mul_right _ hph
  have hpos : 0 < (ph + 1) * tSettle := Nat.mul_pos ph.succ_pos ht
  exact hv _ (by omega)

/-- Every bit of the byte read is then the peer's bit (R151). -/
theorem Circuit.readByte_of_constant (hn : 16 ≤ n) : c.readByte = BitVec.fill 8 v := by
  refine BitVec.eq_of_getLsbD_eq fun j hj => ?_
  have hpulse : 7 - (7 - j) = j := by omega
  have hbit := c.getLsbD_readByte (k := 7 - j) (by omega)
  rw [hpulse, Circuit.peerAtPhaseEnd_of_constant ht hv (by omega)] at hbit
  rw [hbit]
  simp [hj]

end ConstantPeer

/-! ## The obligations -/

/-- Settles O38: the byte is that of the eight samples. -/
theorem readCompletes : Obligations.ReadCompletes := fun _ _ c hs hr =>
  ⟨c.readByte, fun _ => c.getLsbD_readByte, exec_read hs hr⟩

/-- Settles O43: the released line reads 1 at every sample, so a READ's byte is all ones and a SEND finds no
acknowledgment. -/
theorem absentPeer : Obligations.AbsentPeer := by
  intro reload c hs hr hpeer
  have ht : 1 ≤ reload + 1 := Nat.le_add_left 1 reload
  have hbyte : c.readByte = 0xFF := Circuit.readByte_of_constant ht hpeer (by decide)
  have hnack : c.peerAtPhaseEnd 25 = true := Circuit.peerAtPhaseEnd_of_constant ht hpeer (by decide)
  have hread : c.noReset (20 * (reload + 1)) := Circuit.noReset_mono hr (Nat.mul_le_mul_right _ (by decide))
  exact ⟨fun _ => ⟨_, exec_read hs hread, hbyte, rfl⟩, fun _ => ⟨_, exec_send hs hr hnack, rfl⟩⟩

end Sys2Proof.Machine
end

section
/-! PROOFS. The one exception: which edge enters HALT (R160, R162, R165). -/

namespace Sys2Proof.Machine

/-- Settles O20: of the edges outside HALT only a command's last one can write HALT, and it does so for a SEND with
`nak` = 1. -/
theorem onlyUnacknowledgedSendHalts : Obligations.OnlyUnacknowledgedSendHalts := by
  intro t x b hne hhalt
  rcases b.step_cases x with ⟨_, hstep⟩ | ⟨_, _, _, hstep⟩ | ⟨_, _, _, hstep⟩ | ⟨_, _, _, hstep⟩ |
    ⟨_, _, _, _, hstep⟩ | ⟨hr, hs, hd, hp, hstep⟩ | ⟨_, hs, hstep⟩ <;> rw [hstep] at hhalt ⊢
  · exact nomatch hhalt
  · exact nomatch (Block.accept_st _ b).symm.trans hhalt
  · exact absurd hhalt hne
  · exact absurd hhalt hne
  · exact absurd (by simpa using hhalt) hne
  · rcases b.endCommand_cases with ⟨hop, hnak, hend⟩ | ⟨_, hend⟩ <;> rw [hend] at hhalt ⊢
    · have hph : b.ph = 26 := BitVec.eq_of_toNat_eq (by rw [hp, hop]; rfl)
      exact ⟨hr, hs, hop, hph, hd, hnak, rfl⟩
    · exact nomatch hhalt
  · exact absurd hs hne

end Sys2Proof.Machine
end

section
/-! PROOFS. The reset and hazards family: a reset while a command runs, a data line stuck low, and the bus events
START and STOP make (R130, R131, R180, R183, R186, R187, R192). -/

namespace Sys2Proof.Machine

variable {tSettle : Nat}

/-! ## A reset while a command runs -/

/-- As long as the block stays in RUN, `runBusy` is plain clock edges and then the rest of its edges. -/
theorem Circuit.runBusy_add {m : Nat} (n : Nat) {c : Circuit tSettle}
    (h : ∀ k < m, (c.clockEdges k).block.st = .run) : c.runBusy (m + n) = (c.clockEdges m).runBusy n := by
  induction m generalizing c with
  | zero => rw [Nat.zero_add]; rfl
  | succ m ih =>
    have hrun : c.block.st = .run := h 0 m.succ_pos
    rw [Nat.succ_add, Circuit.runBusy, if_pos hrun, Circuit.clockEdges]
    exact ih fun k hk => h (k + 1) (Nat.succ_lt_succ hk)

theorem Circuit.clockEdges_succ_block_of_rst {n : Nat} {c : Circuit tSettle} (h : (c.stimulusAt n).rst = true) :
    (c.clockEdges (n + 1)).block = Block.reset := by
  rw [Circuit.clockEdges_succ, Circuit.clockEdge_block, Circuit.clockEdges_stimulusAt]
  exact Block.step_of_rst h

/-- The record of the bus ends with the line pair of the last edge. -/
theorem Circuit.clockEdges_succ_bus_getLast? (n : Nat) (c : Circuit tSettle) :
    (c.clockEdges (n + 1)).bus.getLast? = some (c.clockEdges (n + 1)).block.lines := by
  rw [Circuit.clockEdges_succ, Circuit.clockEdge_bus, List.getLast?_concat]

/-- A command whose first reset comes in its cycle `n` runs up to the edge of that cycle and no further (R183). -/
theorem Circuit.perform_of_rst (ht : 1 ≤ tSettle) (i : Instr) {c : Circuit tSettle} {n : Nat}
    (hs : c.block.st = .idle) (hn : n < busyCycles i.opcode tSettle) (hr : c.noReset n)
    (hrst : (c.stimulusAt n).rst = true) : c.perform i = (c.acceptEdge i).clockEdges (n + 1) := by
  have hrun : ∀ k < n + 1, ((c.acceptEdge i).clockEdges k).block.st = .run := fun k hk =>
    c.clockEdges_acceptEdge_st i ht (by omega) (Circuit.noReset_mono hr (Nat.le_of_lt_succ hk))
  have hreset : ((c.acceptEdge i).clockEdges (n + 1)).block = Block.reset :=
    Circuit.clockEdges_succ_block_of_rst hrst
  rw [Circuit.perform_of_ready hs, ← Nat.add_sub_of_le hn, Circuit.runBusy_add _ hrun,
    Circuit.runBusy_of_not_run (by rw [hreset]; nofun)]

/-! ## Bus events -/

section BusEvents
variable (txb : Byte) (ackarg : Bit) (p : Lines)

theorem linesThrough_start_zero : linesThrough .start txb ackarg p 0 = ⟨p.scl, false⟩ := rfl

theorem linesThrough_stop_zero : linesThrough .stop txb ackarg p 0 = ⟨true, p.sda⟩ := rfl

/-- START's first phase pulls the data line low: a falling edge with the clock high only from `11` (R130, R186). -/
theorem startCondition_start_zero_iff :
    startCondition p (linesThrough .start txb ackarg p 0) ↔ p = ⟨true, true⟩ := by
  rw [linesThrough_start_zero]
  cases p
  simp [startCondition]

/-- START's second phase follows a data line that is low already. -/
theorem not_startCondition_start_one :
    ¬startCondition (linesThrough .start txb ackarg p 0) (linesThrough .start txb ackarg p 1) := by
  simp [linesThrough_start_zero, startCondition]

/-- STOP's first phase leaves the data line alone. -/
theorem not_stopCondition_stop_zero : ¬stopCondition p (linesThrough .stop txb ackarg p 0) := by
  simp [linesThrough_stop_zero, stopCondition]

/-- STOP's second phase releases the data line with the clock high: a rising edge if it was low (R131, R187). -/
theorem stopCondition_stop_one_iff :
    stopCondition (linesThrough .stop txb ackarg p 0) (linesThrough .stop txb ackarg p 1) ↔ p.sda = false := by
  simp [linesThrough_stop_zero, linesThrough_stop, stopCondition]

end BusEvents

/-! ## The obligations -/

/-- Settles O42: the command's edges up to the reset, the last of which resets the block. -/
theorem resetAbandonsCommand : Obligations.ResetAbandonsCommand := by
  intro i reload c n hs hn hr hrst
  have hreset : ((c.acceptEdge i).clockEdges (n + 1)).block = Block.reset :=
    Circuit.clockEdges_succ_block_of_rst hrst
  refine ⟨(c.acceptEdge i).clockEdges (n + 1), ?_, hreset, Circuit.clockEdges_inputs .., Circuit.clockEdges_cycle ..,
    ?_⟩
  · rw [exec_eq, Circuit.perform_of_rst (Nat.le_add_left 1 reload) i hs hn hr hrst]
  · rw [Circuit.clockEdges_succ_bus_getLast?, hreset]; rfl

/-- Settles O44: the line reads 0 at every sample, so a READ's byte is all zeros and every SEND finds an
acknowledgment. -/
theorem stuckLowDataLine : Obligations.StuckLowDataLine := by
  intro reload c hs hr hpeer
  have ht : 1 ≤ reload + 1 := Nat.le_add_left 1 reload
  have hbyte : c.readByte = 0x00 := Circuit.readByte_of_constant ht hpeer (by decide)
  have hack : c.peerAtPhaseEnd 25 = false := Circuit.peerAtPhaseEnd_of_constant ht hpeer (by decide)
  have hread : c.noReset (20 * (reload + 1)) := Circuit.noReset_mono hr (Nat.mul_le_mul_right _ (by decide))
  exact ⟨fun _ => ⟨_, exec_read hs hread, hbyte, rfl⟩, fun _ => ⟨_, exec_send hs hr hack, rfl, rfl⟩⟩

/-- Settles O50: of START's two edges only the first can be the event, and of STOP's only the second. -/
theorem framingEventsOnTheWire : Obligations.FramingEventsOnTheWire := by
  intro txb ackarg p
  constructor
  · simp [everyEdge, startCondition_start_zero_iff, not_startCondition_start_one]
  · simp [everyEdge, not_stopCondition_stop_zero, stopCondition_stop_one_iff]

end Sys2Proof.Machine
end
